-- ==== Sys2Proof/Config.lean ====
section
/-! DEFINITION. The fixed parameters of the hardware (00_scope.md R8). The spec leaves no result open
(92_eei_decisions.md and 93_implementation_defined.md decide every point), so there is no free value here.
The parameters are reducible names of their numbers. -/

namespace Sys2Proof.Config

/-- MEM_WORDS: words in the data memory, addresses 0 to 2047 (R8, R16). UNVERIFIED by any vector (R10, log entry 16). -/
abbrev memWords : Nat := 2048

/-- REC_BYTES: bytes in one instruction record (R8, R48). -/
abbrev recBytes : Nat := 11

/-- TAG_BITS: width of the opcode tag field A (R8, R49). -/
abbrev tagBits : Nat := 4

/-- W_CONST_B: width of CONST's literal field (R8, R50). -/
abbrev constB : Nat := 23

/-- W_CONST_C: width of CONST's address field (R8, R50). UNVERIFIED by any vector of the source (R10, log entry 16). -/
abbrev constC : Nat := 26

/-- W_M_B: width of field B in LOAD, STORE and BITREV (R8, R51). -/
abbrev memB : Nat := 26

/-- W_M_C: width of field C in LOAD, STORE and BITREV (R8, R51). -/
abbrev memC : Nat := 26

/-- W_M_D: width of field D in LOAD, STORE and BITREV (R8, R51). UNVERIFIED by any vector of the source (R10, log entry 16). -/
abbrev memD : Nat := 7

end Sys2Proof.Config
end

