-- ==== Sys2Proof/Syntax.lean ====
section
/-! DEFINITION. The instructions of the tiny ISA (30_encoding.md R45 to R47) and the errors the block can raise
(60_exceptions.md R101). -/

namespace Sys2Proof

/-- The four opcodes, the complete instruction set (R2, R45, R46). -/
inductive Opcode where
  | const | load | store | bitrev
  deriving DecidableEq, Repr

/-- An instruction: a tagged variant over the four opcodes (R45). Its operands are unbounded signed integers, as at
the input of ENC (R47, R53); what DEC gives satisfies `Instr.wellFormed` (R61; DESIGN CHOICE: one type
for both, log entry 5). The tag is a function of
the constructor and no field (R45). -/
inductive Instr where
  /-- CONST(B value, C address) (R92). -/
  | const (b c : Int)
  /-- LOAD(B address, C address) (R93). -/
  | load (b c : Int)
  /-- STORE(B address, C address) (R94). -/
  | store (b c : Int)
  /-- BITREV(B address, C address, D offset) (R100); in assembly text the order is B, D, C (R73, 90_conflicts.md C1). -/
  | bitrev (b c d : Int)
  deriving DecidableEq, Repr

/-- The opcode of an instruction (R45). -/
def Instr.opcode : Instr → Opcode
  | .const _ _ => .const
  | .load _ _ => .load
  | .store _ _ => .store
  | .bitrev _ _ _ => .bitrev

/-- The complete list of errors the block can raise (R101). -/
inductive BlockError where
  /-- A record's tag is not 3, 4, 9 or 12: raised by DEC, so also by the VM step (R62, R102). -/
  | unknownOpcode (tag : Nat)
  /-- A computed word address is outside `[0, 2048)`: raised by MemRead and MemWrite (R13, R103). -/
  | addressFault (addr : Int)
  /-- DEC's input is not 11 bytes long: raised at DEC's own port only (R61, R104). -/
  | decodeLength (len : Nat)
  /-- ENC was given a raw tag that is no opcode's (R60, R105). -/
  | encodeContract (tag : Nat)
  /-- A dump was asked for a range outside `0 <= start <= end <= 2048` (R87). -/
  | badRange (start stop : Int)
  deriving DecidableEq, Repr

end Sys2Proof
end

