-- ==== Sys2Proof/WellFormed.lean ====
section
/-! DEFINITION. Which instructions fit their record: every operand inside its field (30_encoding.md R47, R52, R65).
ENC accepts the others too and masks them (R57); DEC produces only these (R61). -/

namespace Sys2Proof

/-- `x` is the unsigned value of some `w`-bit field (R52). -/
abbrev fitsField (w : Nat) (x : Int) : Prop := 0 ≤ x ∧ x < 2 ^ w

/-- The operands already fit the field widths (the premise of R65). -/
def Instr.wellFormed : Instr → Bool
  | .const b c => decide (fitsField Config.constB b ∧ fitsField Config.constC c)
  | .load b c => decide (fitsField Config.memB b ∧ fitsField Config.memC c)
  | .store b c => decide (fitsField Config.memB b ∧ fitsField Config.memC c)
  | .bitrev b c d => decide (fitsField Config.memB b ∧ fitsField Config.memC c ∧ fitsField Config.memD d)

end Sys2Proof
end

