-- ==== Sys2Proof/Word.lean ====
section
/-! DEFINITION. The two unsigned data types of the spec: the 64-bit data-memory word (10_state.md R16)
and the byte of a record or of PROG (20_memory.md R28, R30). -/

namespace Sys2Proof

/-- One word of data memory, an unsigned 64-bit value (R16, R17). -/
abbrev Word := BitVec 64

/-- One byte of a record or of PROG (R28). -/
abbrev Byte := BitVec 8

end Sys2Proof
end

