-- ==== Sys2Proof/Decode.lean ====
section
/-! DEFINITION. DEC and ENC: the numbers, slices and bytes of a record (00_scope.md R11 to R13), the opcode map
(30_encoding.md R67), the decoder (R61 to R64), and after it the encoder written from the same layouts (R53 to R60). -/

namespace Sys2Proof

/-- `mask_w(x) = x mod 2^w` with the floor modulo, whose result lies in `[0, 2^w)` for negative `x` too (R12, R57;
UNVERIFIED for negative literals, log entry 13). -/
def maskField (w : Nat) (x : Int) : Nat := (x % 2 ^ w).toNat

/-- `v[hi:lo] = (v >> lo) mod 2^(hi-lo+1)` (R11). -/
def slice (v hi lo : Nat) : Nat := (v >>> lo) % 2 ^ (hi - lo + 1)

/-- `le(bytes)`: the little-endian integer of a byte string (R13, R30). -/
def leValue : List Byte → Nat
  | [] => 0
  | b :: bs => b.toNat + 256 * leValue bs

/-- `bytes_le_n(v)`: the `n` bytes of `v`, least significant first (R13, R30). -/
def leBytes : Nat → Nat → List Byte
  | 0, _ => []
  | n + 1, v => BitVec.ofNat 8 v :: leBytes n (v / 256)

/-- The tag value A of each opcode (R45). -/
def Opcode.tag : Opcode → Nat
  | .const => 4
  | .load => 12
  | .store => 3
  | .bitrev => 9

/-- The opcode map (R67): the opcode a tag stands for, none for an illegal tag. -/
def Opcode.ofTag : Nat → Option Opcode
  | 3 => some .store
  | 4 => some .const
  | 9 => some .bitrev
  | 12 => some .load
  | _ => none

/-- The tag A is determined by the opcode alone (R45). -/
def Instr.tag (i : Instr) : Nat := i.opcode.tag

/-- DEC on the 88-bit number of a record: the tag selects the format, the format's fields are sliced out, and no other
bit is read (R49 to R52, R61 to R63; ignored bits UNVERIFIED: the spec's D8, log entry 10). -/
def decodeRecord (r : Nat) : Except BlockError Instr :=
  match Opcode.ofTag (slice r 3 0) with
  | none => .error (.unknownOpcode (slice r 3 0))
  | some .const => .ok (.const (slice r 26 4) (slice r 52 27))
  | some .load => .ok (.load (slice r 29 4) (slice r 55 30))
  | some .store => .ok (.store (slice r 29 4) (slice r 55 30))
  | some .bitrev => .ok (.bitrev (slice r 29 4) (slice r 55 30) (slice r 62 56))

/-- DEC on any byte string: the length is checked before the tag (R61, R64). -/
def decode (bytes : List Byte) : Except BlockError Instr :=
  if bytes.length = Config.recBytes then decodeRecord (leValue bytes) else .error (.decodeLength bytes.length)

/-- The 88-bit number ENC builds for an instruction, operands masked to their fields (R54 to R57). -/
def encodeRecord : Instr → Nat
  | .const b c => Opcode.const.tag ||| (maskField Config.constB b <<< 4) ||| (maskField Config.constC c <<< 27)
  | .load b c => Opcode.load.tag ||| (maskField Config.memB b <<< 4) ||| (maskField Config.memC c <<< 30) ||| (0 <<< 56)
  | .store b c => Opcode.store.tag ||| (maskField Config.memB b <<< 4) ||| (maskField Config.memC c <<< 30) ||| (0 <<< 56)
  | .bitrev b c d =>
    Opcode.bitrev.tag ||| (maskField Config.memB b <<< 4) ||| (maskField Config.memC c <<< 30)
      ||| (maskField Config.memD d <<< 56)

/-- ENC: the 11 bytes of an instruction (R48, R53). -/
def encode (i : Instr) : List Byte := leBytes Config.recBytes (encodeRecord i)

/-- ENC on a Program: the records in program order, nothing between or around them (R59). -/
def encodeProgram (p : List Instr) : List Byte := p.flatMap encode

/-- The instruction an opcode makes of raw operands: LOAD, STORE and CONST take no D (R45, R51). -/
def Opcode.instr (o : Opcode) (b c d : Int) : Instr :=
  match o with
  | .const => .const b c
  | .load => .load b c
  | .store => .store b c
  | .bitrev => .bitrev b c d

/-- ENC taken with a raw tag number: no bytes and EncodeContract for a tag that is no opcode's (R60, R105;
DESIGN CHOICE: the optional form is modelled too, log entry 17). -/
def encodeRaw (tag : Nat) (b c d : Int) : Except BlockError (List Byte) :=
  match Opcode.ofTag tag with
  | none => .error (.encodeContract tag)
  | some o => .ok (encode (o.instr b c d))

/-- The 11 bytes of a table word (DESIGN CHOICE: longer words are cut, log entry 21): bit 0 of `w` is the least significant bit of byte 0, and every bit from `nbits` up
is 0 (R11, R30). -/
def tableRecord (nbits w : Nat) : List Byte := leBytes Config.recBytes (w % 2 ^ nbits)

/-- The instruction DEC reads from the record of a table word. -/
def decodeTableWord (nbits w : Nat) : Option Instr :=
  match decode (tableRecord nbits w) with
  | .ok i => some i
  | .error _ => none

end Sys2Proof
end

