-- ==== Sys2Proof/Machine/State.lean ====
section
/-! DEFINITION. The state of the VM (10_state.md), the two ways a step can end without a next state, and the state
after VM creation (10_state.md R26, 70_reset_and_hazards.md R120). -/

namespace Sys2Proof.Machine

/-- One listed word of data memory: a word address and its value (R16, R27). DESIGN CHOICE: word
cells and not byte cells, log entry 3. -/
abbrev WordCell := Nat × Word

/-- The data memory M as plain data: the words that do not hold the unlisted word, addresses strictly rising
(`Memory.wf`); every other word of the 2048 reads as `Memory.unlisted`. -/
abbrev Memory := List WordCell

/-- The run status with its fault record (R20, R21, R23; UNVERIFIED: the spec's D11 and D5, log entry 4). -/
inductive RunStatus where
  /-- More steps may be taken. -/
  | running
  /-- The run ended normally: fewer than 11 bytes remain at `off` (R78). -/
  | halted
  /-- The run was aborted by an error; the record holds the cause with its tag or address, and the `off` of the
  faulting record (R21, R109). -/
  | faulted (e : BlockError) (offset : Nat)
  /-- The host stopped the run from outside (R111). -/
  | aborted
  deriving DecidableEq, Repr

/-- Everything the VM holds (R23, R26), and the run's parameter PROG beside it (R25, log entry 1). -/
structure State where
  /-- The data memory M (R16). -/
  mem : Memory
  /-- The fetch offset, the program counter: an unbounded natural (R18, R19). -/
  off : Nat
  /-- The run status and its fault record (R20, R21). -/
  status : RunStatus
  /-- PROG, the immutable byte string of the run (R9, R25, R28): the model's own field. DESIGN CHOICE, log entry 1. -/
  prog : List Byte
  deriving DecidableEq, Repr

/-- Why a step has no next state: the VM has no step once its run is over (R77). Raised by `step` alone, never by an
instruction. All three are safe: the model stops where the VM has stopped (DESIGN CHOICE: a fault and no stuttering step,
log entry 4). -/
inductive Fault where
  /-- The run is Halted (R77, R78). Raised by `step`; safe. -/
  | runHalted
  /-- The run is Faulted with this fault record (R77, R110). Raised by `step`; safe. -/
  | runFaulted (e : BlockError) (offset : Nat)
  /-- The run is Aborted (R77, R111). Raised by `step`; safe. -/
  | runAborted
  deriving DecidableEq, Repr

/-- Why the model gives no meaning. -/
inductive Refusal where
  /-- An instruction without a meaning in the model. Raised by no arm: all four instructions have one. Safe. -/
  | notModelled (mnemonic : String)
  deriving DecidableEq, Repr

/-- The state right after VM creation (R26, R120): every word 0, `off` 0, Running with no fault record. PROG is not
given by creation, the host fixes it before the first step (R123): DESIGN CHOICE empty here, log entry 1. -/
def State.reset : State where
  mem := []
  off := 0
  status := .running
  prog := []

end Sys2Proof.Machine
end

