-- ==== Sys2Proof/Machine/Ops.lean ====
section
/-! DEFINITION. The named operations of the VM: data memory, the checked accesses MemRead and MemWrite
(00_scope.md R13), what a completed instruction and an error do to the state (40_fetch_execute.md R81,
60_exceptions.md R109), and the fetch (R78, R79). -/

namespace Sys2Proof.Machine

/-- What a word that nothing has written holds (R17, R26). -/
def Memory.unlisted : Word := 0

/-- The word at an address: the listed one, or the unlisted word. -/
def Memory.read : Memory → Nat → Word
  | [], _ => Memory.unlisted
  | (k, w) :: m, a => if a = k then w else Memory.read m a

/-- The word put at an address, keeping the canonical form: writing the unlisted word removes the entry. -/
def Memory.write : Memory → Nat → Word → Memory
  | [], a, v => if v = Memory.unlisted then [] else [(a, v)]
  | (k, w) :: m, a, v =>
    if a < k then (if v = Memory.unlisted then (k, w) :: m else (a, v) :: (k, w) :: m)
    else if a = k then (if v = Memory.unlisted then m else (a, v) :: m)
    else (k, w) :: Memory.write m a v

/-- The canonical form: addresses strictly rising and inside `[0, 2048)`, no entry holding the unlisted word. -/
def Memory.wf (m : Memory) : Bool :=
  decide (m.Pairwise (fun x y => x.1 < y.1)) &&
    m.all (fun x => decide (x.1 < Config.memWords) && decide (x.2 ≠ Memory.unlisted))

/-- The address names a word of the data memory (R27, R38). -/
abbrev inMemory (a : Int) : Prop := 0 ≤ a ∧ a < Config.memWords

/-- `MemRead(a, 1)` (R13, R34, R38): the word at `a`, or AddressFault(a), never wrapped or clamped (the spec's D3, log
entry 6). -/
def memRead (m : Memory) (a : Int) : Except BlockError Word :=
  if inMemory a then .ok (Memory.read m a.toNat) else .error (.addressFault a)

/-- `MemWrite(a, 1, v)` (R13, R34, R38): `M[a] <- mask_64(v)`, or AddressFault(a) and no memory. -/
def memWrite (m : Memory) (a v : Int) : Except BlockError Memory :=
  if inMemory a then .ok (Memory.write m a.toNat (BitVec.ofInt 64 v)) else .error (.addressFault a)

/-- An instruction completed with memory `m`: the loop advances `off` by one record (R18, R81). -/
def State.retire (s : State) (m : Memory) : State := { s with mem := m, off := s.off + Config.recBytes }

/-- Entry on an error in a VM step (R109): the fault record with the `off` of the faulting record; `off` and M stay.
There is no return from it (R110). UNVERIFIED: the spec's D4, log entry 7. -/
def State.takeError (s : State) (e : BlockError) : State := { s with status := .faulted e s.off }

/-- Halting (R78): the status, and nothing else. -/
def State.halt (s : State) : State := { s with status := .halted }

/-- How an instruction ends: with the memory its one write made, or with the first error it raised and no write
(R81, R90, R109; fault order UNVERIFIED: the spec's D6, log entry 8). Both are next states. -/
def conclude (s : State) : Except BlockError Memory → Host.Outcome State Fault Refusal
  | .ok m => .next (s.retire m)
  | .error e => .next (s.takeError e)

/-- The 11 bytes of the record at `off`, or none where fewer remain (R78, R79). -/
def fetch (s : State) : Option (List Byte) :=
  if s.prog.length - s.off < Config.recBytes then none else some ((s.prog.drop s.off).take Config.recBytes)

/-- PROG with a record laid over the place the next fetch reads, zero bytes filling up to it where PROG is shorter. -/
def placeRecord (prog : List Byte) (off : Nat) (rec : List Byte) : List Byte :=
  prog.take off ++ List.replicate (off - prog.length) 0 ++ rec ++ prog.drop (off + rec.length)

end Sys2Proof.Machine
end

