-- ==== Sys2Proof/Machine/Operands.lean ====
section
/-! DEFINITION. The operand forms that read memory: the cell behind one pointer (LOAD, STORE) and the cell behind a
base pointer plus an offset (BITREV). Literal and direct operands are used as they stand (30_encoding.md R46, R52). -/

namespace Sys2Proof.Machine

/-- A word used as an address: its unsigned value, neither wrapped nor clamped (R31, R38). -/
def addressOf (w : Word) : Int := (w.toNat : Int)

/-- `M[M[b]]`: the word behind the pointer in cell `b`, the pointer cell checked first (R93, R94, R95, R108). -/
def indirect (m : Memory) (b : Int) : Except BlockError Word := do
  let p ← memRead m b
  memRead m (addressOf p)

/-- BITREV's effective address: an exact integer sum, no wrap at 2^64 (R99; UNVERIFIED: the spec's D7, log
entry 9). -/
def effectiveAddress (base : Word) (d : Int) : Int := addressOf base + d

/-- `M[M[b] + d]`: the word at the base pointer in cell `b` plus the literal offset (R99, R100). -/
def indexed (m : Memory) (b d : Int) : Except BlockError Word := do
  let base ← memRead m b
  memRead m (effectiveAddress base d)

end Sys2Proof.Machine
end

