-- ==== Sys2Proof/Machine/BitReverse.lean ====
section
/-! DEFINITION. The bit-reverse unit and BITREV (42_bitrev.md). -/

namespace Sys2Proof.Machine

/-- The first `n` terms of R96's sum: bit `i` of the input weighs `2^(63 - i)` in the output. -/
def revSum (x : Word) : Nat → Nat
  | 0 => 0
  | n + 1 => revSum x n + (if x.getLsbD n then 2 ^ (63 - n) else 0)

/-- `rev64(x) = sum over i in 0..63 of x[i] * 2^(63 - i)` (R96). -/
def rev64 (x : Word) : Word := BitVec.ofNat 64 (revSum x 64)

/-- BITREV(B, C, D): `base := M[B]`, `value := M[base + D]`, `M[C] <- rev64(value)` (R99, R100). -/
def execBitrev (b c d : Int) (s : State) : Host.Outcome State Fault Refusal :=
  conclude s do
    let v ← indexed s.mem b d
    memWrite s.mem c (addressOf (rev64 v))

end Sys2Proof.Machine
end

