-- ==== Sys2Proof/Machine/Transfer.lean ====
section
/-! DEFINITION. CONST, LOAD and STORE (41_const_load_store.md): reads in pseudocode order, then one write (R90). -/

namespace Sys2Proof.Machine

/-- CONST(B, C): `M[C] <- B` (R92). -/
def execConst (b c : Int) (s : State) : Host.Outcome State Fault Refusal :=
  conclude s (memWrite s.mem c b)

/-- LOAD(B, C): `M[C] <- M[M[B]]` (R93). -/
def execLoad (b c : Int) (s : State) : Host.Outcome State Fault Refusal :=
  conclude s do
    let v ← indirect s.mem b
    memWrite s.mem c (addressOf v)

/-- STORE(B, C): `value := M[M[B]]`, `dest := M[M[C]]`, `M[dest] <- value` (R94, R95, 90_conflicts.md C2). -/
def execStore (b c : Int) (s : State) : Host.Outcome State Fault Refusal :=
  conclude s do
    let v ← indirect s.mem b
    let dest ← indirect s.mem c
    memWrite s.mem (addressOf dest) (addressOf v)

end Sys2Proof.Machine
end

