-- ==== Sys2Proof/Machine/Dispatch.lean ====
section
/-! DEFINITION. Which meaning each instruction has (40_fetch_execute.md R81, R82): one arm per constructor. -/

namespace Sys2Proof.Machine

def exec (i : Instr) (s : State) : Host.Outcome State Fault Refusal :=
  match i with
  | .const b c => Sys2Proof.Machine.execConst b c s
  | .load b c => Sys2Proof.Machine.execLoad b c s
  | .store b c => Sys2Proof.Machine.execStore b c s
  | .bitrev b c d => Sys2Proof.Machine.execBitrev b c d s

end Sys2Proof.Machine
end

