-- ==== Sys2Proof/Machine/Step.lean ====
section
/-! DEFINITION. The VM's step (40_fetch_execute.md R82), and the state whose next fetch reads a given record. -/

namespace Sys2Proof.Machine

/-- One transition of the VM (R77 to R82). A run that is over has no step: a fault of its own name (R77,
log entry 4). The status is tested here and not in the meanings (DESIGN CHOICE, log entry 19). -/
def step (s : State) : Host.Outcome State Fault Refusal :=
  match s.status with
  | .halted => .fault .runHalted
  | .faulted e offset => .fault (.runFaulted e offset)
  | .aborted => .fault .runAborted
  | .running =>
    match fetch s with
    | none => .next s.halt
    | some rec =>
      match decode rec with
      | .error e => .next (s.takeError e)
      | .ok i => exec i s

/-- The state whose next step fetches and runs the record of the table word: the record stands in PROG at `off`, and
the run is Running, which a step needs (R77, R79; DESIGN CHOICE, log entry 2). -/
def State.withFetchWord (s : State) (nbits w : Nat) : State :=
  { s with status := .running, prog := placeRecord s.prog s.off (tableRecord nbits w) }

end Sys2Proof.Machine
end

