-- ==== Sys2Proof/Machine/Assembler.lean ====
section
/-! DEFINITION. The assembly notation of programs (30_encoding.md R69 to R75, 60_exceptions.md R106): software around
the block (00_scope.md R5), modelled because every program of the spec is written in it. The input is the text's
characters, already decoded from UTF-8. Edge spellings: DESIGN CHOICE, log entries 12 and 18. -/

namespace Sys2Proof.Machine

/-- The assembler's errors, with the number of the offending line (from 0) and the offending token (R106). -/
inductive AsmError where
  /-- The mnemonic is none of the four; the token names it (R70). -/
  | unknownInstruction (line : Nat) (token : List Char)
  /-- An argument is not a base-10 integer, an empty one included (R71). -/
  | nonIntegerArgument (line : Nat) (arg : List Char)
  /-- The mnemonic requires another number of arguments (R72). -/
  | wrongArgumentCount (line : Nat) (op : Opcode) (required : Nat)
  /-- The line does not start with a letter (R70). -/
  | unparsableLine (line : Nat) (text : List Char)
  deriving DecidableEq, Repr

/-- A text cut at every `sep`: always one piece more than there are separators. -/
def splitAtChar (sep : Char) : List Char → List (List Char)
  | [] => [[]]
  | c :: cs =>
    if c = sep then [] :: splitAtChar sep cs
    else match splitAtChar sep cs with
      | [] => [[c]]
      | p :: ps => (c :: p) :: ps

/-- Whitespace of the notation: the space alone (DESIGN CHOICE, log entry 12). -/
def isBlank (c : Char) : Bool := c = ' '

/-- A text without the whitespace around it (R69, R71). -/
def strip (t : List Char) : List Char := ((t.dropWhile isBlank).reverse.dropWhile isBlank).reverse

/-- A line without its comment, from the first `;` onward, and without surrounding whitespace (R69). -/
def cleanLine (t : List Char) : List Char := strip (t.takeWhile (· ≠ ';'))

/-- The mnemonic a token of letters spells, in either case (R70). -/
def mnemonicOf (token : List Char) : Option Opcode :=
  let up := token.map Char.toUpper
  if up = ['C', 'O', 'N', 'S', 'T'] then some .const
  else if up = ['L', 'O', 'A', 'D'] then some .load
  else if up = ['S', 'T', 'O', 'R', 'E'] then some .store
  else if up = ['B', 'I', 'T', 'R', 'E', 'V'] then some .bitrev
  else none

/-- The value of a string of decimal digits after `acc`, none if a character is no digit (R71). -/
def digitsValue : List Char → Nat → Option Nat
  | [], acc => some acc
  | c :: cs, acc => if c.isDigit then digitsValue cs (10 * acc + (c.toNat - '0'.toNat)) else none

/-- One or more digits (R71). -/
def parseNat : List Char → Option Nat
  | [] => none
  | c :: cs => digitsValue (c :: cs) 0

/-- An optional sign and one or more digits, whitespace around them allowed; no range check (R71). -/
def parseInt (t : List Char) : Option Int :=
  match strip t with
  | '-' :: ds => (parseNat ds).map (fun n => -(n : Int))
  | '+' :: ds => (parseNat ds).map (fun n => (n : Int))
  | ds => (parseNat ds).map (fun n => (n : Int))

/-- Every argument parsed, or the first that is no integer (R71). -/
def parseArgs (line : Nat) : List (List Char) → Except AsmError (List Int)
  | [] => .ok []
  | a :: as =>
    match parseInt a with
    | none => .error (.nonIntegerArgument line a)
    | some n => (parseArgs line as).map (n :: ·)

/-- The arguments of a mnemonic from the text after it: none at all, or cut at the commas (R71). -/
def argsOf (line : Nat) (rest : List Char) : Except AsmError (List Int) :=
  if strip rest = [] then .ok [] else parseArgs line (splitAtChar ',' rest)

/-- How many arguments each mnemonic requires (R72). -/
def arityOf : Opcode → Nat
  | .const => 2
  | .load => 2
  | .store => 2
  | .bitrev => 3

/-- The instruction a mnemonic and its arguments build; BITREV's text order is B, D, C (R72, R73, 90_conflicts.md C1). -/
def buildInstr (line : Nat) (op : Opcode) (args : List Int) : Except AsmError Instr :=
  match op, args with
  | .const, [b, c] => .ok (.const b c)
  | .load, [b, c] => .ok (.load b c)
  | .store, [b, c] => .ok (.store b c)
  | .bitrev, [b, d, c] => .ok (.bitrev b c d)
  | op, _ => .error (.wrongArgumentCount line op (arityOf op))

/-- One line: no instruction for a blank one, else one instruction or an error (R69 to R73). -/
def assembleLine (line : Nat) (text : List Char) : Except AsmError (Option Instr) :=
  let t := cleanLine text
  let token := t.takeWhile Char.isAlpha
  if t = [] then .ok none
  else if token = [] then .error (.unparsableLine line t)
  else match mnemonicOf token with
    | none => .error (.unknownInstruction line token)
    | some op => do
      let args ← argsOf line (t.dropWhile Char.isAlpha)
      let i ← buildInstr line op args
      .ok (some i)

/-- The lines in source order: one instruction for each that is not blank, or the first error (R74). -/
def assembleLines : Nat → List (List Char) → Except AsmError (List Instr)
  | _, [] => .ok []
  | n, t :: ts => do
    let i ← assembleLine n t
    let p ← assembleLines (n + 1) ts
    .ok (i.toList ++ p)

/-- The assembler: a text of lines to a Program, or an error and no Program (R69, R74). -/
def assemble (text : List Char) : Except AsmError (List Instr) := assembleLines 0 (splitAtChar '\n' text)

end Sys2Proof.Machine
end

