-- ==== Sys2Proof/Machine/HostInterface.lean ====
section
/-! DEFINITION. What the host can do with the VM from outside (40_fetch_execute.md R76, R86 to R89; 60_exceptions.md
R101, R111, R118; 70_reset_and_hazards.md R123). `create` is `State.reset`, and `step` is the VM's step. -/

namespace Sys2Proof.Machine

/-- program: the host fixes PROG before the first step (R76, R89, R123). Only the host calls this, and only then. -/
def loadProgram (s : State) (prog : List Byte) : State := { s with prog := prog }

/-- At most `n` steps: stops where the VM has no step. -/
def runFor : Nat → State → State
  | 0, s => s
  | n + 1, s =>
    match step s with
    | .next t => runFor n t
    | .fault _ => s
    | .refused _ => s

/-- run: steps until the status is not Running (R76). `N + 1` steps suffice, N the number of whole records (R85;
DESIGN CHOICE: the bound is the number of steps taken, log entry 20). -/
def run (s : State) : State := runFor (s.prog.length / Config.recBytes + 1) s

/-- status: the status, its fault record and `off` (R76, R118). -/
def statusView (s : State) : RunStatus × Nat := (s.status, s.off)

/-- The numeric cause codes, labels only (R101, 92_eei_decisions.md D11). -/
def causeCode : BlockError → Nat
  | .unknownOpcode _ => 1
  | .addressFault _ => 2
  | .decodeLength _ => 3
  | .encodeContract _ => 4
  | .badRange _ _ => 5

/-- abort: the host stops a running VM between steps; M and `off` stay (R111). A run that is over is left as it is
(R77; DESIGN CHOICE, log entry 14). -/
def abort (s : State) : State :=
  match s.status with
  | .running => { s with status := .aborted }
  | .halted => s
  | .faulted _ _ => s
  | .aborted => s

/-- dump: the words of `[start, stop)` in address order as unsigned integers, or BadRange (R86, R87; UNVERIFIED: the spec's D9, log entry 11).
It gives a list and no state, so it changes nothing (R88). -/
def dump (s : State) (start stop : Int) : Except BlockError (List Nat) :=
  if 0 ≤ start ∧ start ≤ stop ∧ stop ≤ Config.memWords then
    .ok ((List.range' start.toNat (stop - start).toNat).map (fun a => (Memory.read s.mem a).toNat))
  else .error (.badRange start stop)

end Sys2Proof.Machine
end

