-- ==== Sys2Proof/Safety.lean ====
section
/-! DEFINITION. The legal states of the VM (10_state.md R17, R19, R23) and what counts as a successful run
(40_fetch_execute.md R85, R87). -/

namespace Sys2Proof.Machine

/-- A cause the VM's fault record can hold, with the values R23, R62, R99 and R103 allow: an illegal tag of four bits,
or an out-of-range address no larger than BITREV's largest sum. -/
def vmCause : BlockError → Bool
  | .unknownOpcode t => decide (t < 16) && decide (t ≠ 3 ∧ t ≠ 4 ∧ t ≠ 9 ∧ t ≠ 12)
  | .addressFault a => decide ((Config.memWords : Int) ≤ a) && decide (a ≤ 2 ^ 64 + 126)
  | .decodeLength _ => false
  | .encodeContract _ => false
  | .badRange _ _ => false

/-- What each status says of the offset: Halted only where no whole record remains (R78), a fault record only of a
record that was there and with that record's offset (R21, R109). -/
def statusLegal (s : State) : Bool :=
  match s.status with
  | .running => true
  | .halted => decide (s.prog.length - s.off < Config.recBytes)
  | .faulted e offset => vmCause e && decide (offset = s.off) && decide (s.off + Config.recBytes ≤ s.prog.length)
  | .aborted => true

/-- A legal state: memory canonical (and so inside its 2048 words), `off` a multiple of 11 and inside PROG, the status
as R20, R21 and R23 allow. -/
def State.Inv (s : State) : Bool :=
  Memory.wf s.mem && decide (s.off % Config.recBytes = 0) && decide (s.off ≤ s.prog.length) && statusLegal s

/-- From `s` to `t` an instruction completed whose one write put `v` at word `a`: every other word, the status and
PROG are as before, and `off` is one record further (R18, R34, R81, R90). -/
def completedWith (s t : State) (a : Nat) (v : Word) : Prop :=
  Memory.read t.mem a = v ∧ (∀ k, k ≠ a → Memory.read t.mem k = Memory.read s.mem k) ∧
    t.off = s.off + 11 ∧ t.status = s.status ∧ t.prog = s.prog

/-- The only successful outcome of a run (R85). -/
abbrev State.succeeded (s : State) : Prop := s.status = .halted

end Sys2Proof.Machine
end

