-- ==== Sys2Proof/Certificates/Slice0/Obligations.lean ====
section
/-! DEFINITION. The statements for the provers, in the order of spec/'s rules. Nothing is proved here. -/

open Sys2Proof Sys2Proof.Machine

/-! ## Numbers, records, ENC and DEC -/

/-- Numbers, 00_scope.md section 5: `mask_w` is the floor residue, lies in `[0, 2^w)`, and is the two's-complement AND. For
negative literals this is the spec's decision D14 (log entry 13). -/
def Obligations.MaskIsTwosComplementTruncation : Prop :=
  ∀ (w : Nat) (x : Int),
    (maskField w x : Int) = x % 2 ^ w ∧ maskField w x < 2 ^ w ∧ maskField w x = (BitVec.ofInt w x).toNat

/-- R61: DEC on a string of any length, its tag selecting the fields. -/
def Obligations.DecodeReadsFieldsOfTag : Prop :=
  ∀ bytes : List Byte,
    let r := leValue bytes
    (bytes.length ≠ 11 → decode bytes = .error (.decodeLength bytes.length)) ∧
    (bytes.length = 11 →
      (slice r 3 0 = 4 → decode bytes = .ok (.const (slice r 26 4) (slice r 52 27))) ∧
      (slice r 3 0 = 12 → decode bytes = .ok (.load (slice r 29 4) (slice r 55 30))) ∧
      (slice r 3 0 = 3 → decode bytes = .ok (.store (slice r 29 4) (slice r 55 30))) ∧
      (slice r 3 0 = 9 → decode bytes = .ok (.bitrev (slice r 29 4) (slice r 55 30) (slice r 62 56))) ∧
      (slice r 3 0 ≠ 4 ∧ slice r 3 0 ≠ 12 ∧ slice r 3 0 ≠ 3 ∧ slice r 3 0 ≠ 9 →
        decode bytes = .error (.unknownOpcode (slice r 3 0))))

/-- R62: when DEC raises, and what: the length first, then one of the twelve illegal tags. That the length comes first is
the spec's own inference (30_encoding.md section 4, "The length is checked first"). -/
def Obligations.DecodeErrorsAreLengthThenTag : Prop :=
  ∀ (bytes : List Byte) (e : BlockError),
    decode bytes = .error e ↔
      (bytes.length ≠ 11 ∧ e = .decodeLength bytes.length) ∨
      (bytes.length = 11 ∧ slice (leValue bytes) 3 0 ∈ [0, 1, 2, 5, 6, 7, 8, 10, 11, 13, 14, 15] ∧
        e = .unknownOpcode (slice (leValue bytes) 3 0))

/-- R52: every instruction DEC gives has each operand inside its field. -/
def Obligations.DecodedOperandsFitFields : Prop :=
  ∀ (bytes : List Byte) (i : Instr), decode bytes = .ok i → i.wellFormed = true

/-- The bits above the last field a tag selects can be cleared without changing what DEC answers: the spec's decision D8
(log entry 10). -/
def Obligations.DecodeIgnoresBitsOutsideFields : Prop :=
  ∀ bytes : List Byte, bytes.length = 11 →
    let r := leValue bytes
    (slice r 3 0 = 4 → decode bytes = decode (leBytes 11 (r % 2 ^ 53))) ∧
    (slice r 3 0 = 12 → decode bytes = decode (leBytes 11 (r % 2 ^ 56))) ∧
    (slice r 3 0 = 3 → decode bytes = decode (leBytes 11 (r % 2 ^ 56))) ∧
    (slice r 3 0 = 9 → decode bytes = decode (leBytes 11 (r % 2 ^ 63)))

/-- R54 to R56: the number of the record, every masked operand at its bit (the fields are disjoint, so OR is sum). -/
def Obligations.EncodePlacesMaskedFields : Prop :=
  ∀ b c d : Int,
    (leValue (encode (.const b c)) : Int) = 4 + 2 ^ 4 * (b % 2 ^ 23) + 2 ^ 27 * (c % 2 ^ 26) ∧
    (leValue (encode (.load b c)) : Int) = 12 + 2 ^ 4 * (b % 2 ^ 26) + 2 ^ 30 * (c % 2 ^ 26) ∧
    (leValue (encode (.store b c)) : Int) = 3 + 2 ^ 4 * (b % 2 ^ 26) + 2 ^ 30 * (c % 2 ^ 26) ∧
    (leValue (encode (.bitrev b c d)) : Int) =
      9 + 2 ^ 4 * (b % 2 ^ 26) + 2 ^ 30 * (c % 2 ^ 26) + 2 ^ 56 * (d % 2 ^ 7) ∧
    (encode (.const b c)).length = 11 ∧ (encode (.load b c)).length = 11 ∧
    (encode (.store b c)).length = 11 ∧ (encode (.bitrev b c d)).length = 11

/-- The byte view of format C, which the spec derives from its table (30_encoding.md section 2). -/
def Obligations.ConstRecordByteView : Prop :=
  ∀ (b c : Int) (vB vC : Nat), vB = maskField 23 b → vC = maskField 26 c →
    encode (.const b c) =
      [vB % 2 ^ 4 * 2 ^ 4 + 4, vB / 2 ^ 4, vB / 2 ^ 12, vC % 2 ^ 5 * 2 ^ 3 + vB / 2 ^ 20, vC / 2 ^ 5, vC / 2 ^ 13,
        vC / 2 ^ 21, 0, 0, 0, 0].map (BitVec.ofNat 8)

/-- The byte view of format M for LOAD, STORE and BITREV, which the spec derives from its table (30_encoding.md section 2). -/
def Obligations.MemoryFormatRecordByteView : Prop :=
  ∀ (b c d : Int) (vB vC vD : Nat), vB = maskField 26 b → vC = maskField 26 c → vD = maskField 7 d →
    let view := fun tag byte7 : Nat =>
      [vB % 2 ^ 4 * 2 ^ 4 + tag, vB / 2 ^ 4, vB / 2 ^ 12, vC % 2 ^ 2 * 2 ^ 6 + vB / 2 ^ 20, vC / 2 ^ 2, vC / 2 ^ 10,
        vC / 2 ^ 18, byte7, 0, 0, 0].map (BitVec.ofNat 8)
    encode (.load b c) = view 12 0 ∧ encode (.store b c) = view 3 0 ∧ encode (.bitrev b c d) = view 9 vD

/-- In every record ENC emits the bits above the last field are zero: derived by the spec from R54 to R56. -/
def Obligations.EncodedBitsAboveFieldsAreZero : Prop :=
  ∀ b c d : Int,
    leValue (encode (.const b c)) < 2 ^ 53 ∧ leValue (encode (.load b c)) < 2 ^ 63 ∧
    leValue (encode (.store b c)) < 2 ^ 63 ∧ leValue (encode (.bitrev b c d)) < 2 ^ 63

/-- R59: a Program's bytes are its records in order, 11 for each. -/
def Obligations.ProgramEncodingConcatenatesRecords : Prop :=
  ∀ p : List Instr, encodeProgram p = (p.map encode).flatten ∧ (encodeProgram p).length = 11 * p.length

/-- ENC with a raw tag, the spec's decision D17 (log entry 17), makes no bytes of a tag that is no opcode's, and the opcode's record of the four that are. -/
def Obligations.RawTagOutsideOpcodesIsContractError : Prop :=
  ∀ (tag : Nat) (b c d : Int),
    (tag ≠ 3 ∧ tag ≠ 4 ∧ tag ≠ 9 ∧ tag ≠ 12 → encodeRaw tag b c d = .error (.encodeContract tag)) ∧
    encodeRaw 3 b c d = .ok (encode (.store b c)) ∧ encodeRaw 4 b c d = .ok (encode (.const b c)) ∧
    encodeRaw 9 b c d = .ok (encode (.bitrev b c d)) ∧ encodeRaw 12 b c d = .ok (encode (.load b c))

/-- DEC undoes ENC on every instruction whose operands fit ("Decode must be the exact inverse of Encode"), and gives the
masked operands of any other, which the spec derives from R54 to R56 and R61. -/
def Obligations.DecodeUndoesEncode : Prop :=
  (∀ i : Instr, i.wellFormed = true → decode (encode i) = .ok i) ∧
  (∀ b c : Int, decode (encode (.const b c)) = .ok (.const (maskField 23 b) (maskField 26 c))) ∧
  (∀ b c : Int, decode (encode (.load b c)) = .ok (.load (maskField 26 b) (maskField 26 c))) ∧
  (∀ b c : Int, decode (encode (.store b c)) = .ok (.store (maskField 26 b) (maskField 26 c))) ∧
  (∀ b c d : Int, decode (encode (.bitrev b c d)) = .ok (.bitrev (maskField 26 b) (maskField 26 c) (maskField 7 d)))

/-- ENC undoes DEC exactly on the records whose ignored bits are zero, so DEC is not injective: derived by the spec
("The converse fails") from its decision D8 (log entry 10). -/
def Obligations.EncodeUndoesDecodeOnlyWithoutIgnoredBits : Prop :=
  (∀ (bytes : List Byte) (b c : Int), decode bytes = .ok (.const b c) →
    (encode (.const b c) = bytes ↔ leValue bytes < 2 ^ 53)) ∧
  (∀ (bytes : List Byte) (b c : Int), decode bytes = .ok (.load b c) →
    (encode (.load b c) = bytes ↔ leValue bytes < 2 ^ 56)) ∧
  (∀ (bytes : List Byte) (b c : Int), decode bytes = .ok (.store b c) →
    (encode (.store b c) = bytes ↔ leValue bytes < 2 ^ 56)) ∧
  (∀ (bytes : List Byte) (b c d : Int), decode bytes = .ok (.bitrev b c d) →
    (encode (.bitrev b c d) = bytes ↔ leValue bytes < 2 ^ 63)) ∧
  (∃ (x y : List Byte) (i : Instr), x ≠ y ∧ decode x = .ok i ∧ decode y = .ok i)

/-- The source's four literal records (95_test_vectors.md S6 to S9) decode to the instructions their texts name. -/
def Obligations.SourceRecordsDecode : Prop :=
  decode [0xE4, 0x35, 0x00, 0x48, 0x0E, 0, 0, 0, 0, 0, 0] = .ok (.const 862 457) ∧
  decode [0xDC, 0x13, 0x00, 0x80, 0x79, 0, 0, 0, 0, 0, 0] = .ok (.load 317 486) ∧
  decode [0x23, 0x35, 0x00, 0xC0, 0xDB, 0, 0, 0, 0, 0, 0] = .ok (.store 850 879) ∧
  decode [0x59, 0x07, 0x00, 0x80, 0x64, 0, 0, 0x2B, 0, 0, 0] = .ok (.bitrev 117 402 43)

/-! ## Assembly notation -/

/-- R69: everything from the first semicolon on is comment. -/
def Obligations.CommentsDoNotChangeALine : Prop :=
  ∀ (n : Nat) (t u : List Char), assembleLine n (t ++ ';' :: u) = assembleLine n t

/-- R72: a mnemonic builds an instruction of exactly its argument count, and otherwise says how many it requires; the
source's three failing lines. That an error carries its line number from 0 and its token as written is the model's choice
(DESIGN CHOICE, log entry 18). -/
def Obligations.ArgumentCountIsEnforced : Prop :=
  (∀ (n : Nat) (op : Opcode) (args : List Int),
    (args.length = (match op with | .const => 2 | .load => 2 | .store => 2 | .bitrev => 3) →
      ∃ i, buildInstr n op args = .ok i ∧ i.opcode = op) ∧
    (args.length ≠ (match op with | .const => 2 | .load => 2 | .store => 2 | .bitrev => 3) →
      buildInstr n op args =
        .error (.wrongArgumentCount n op (match op with | .const => 2 | .load => 2 | .store => 2 | .bitrev => 3)))) ∧
  assemble "CONST 1".toList = .error (.wrongArgumentCount 0 .const 2) ∧
  assemble "BITREV 1,2".toList = .error (.wrongArgumentCount 0 .bitrev 3) ∧
  assemble "FOO 1,2".toList = .error (.unknownInstruction 0 "FOO".toList)

/-- R73: the text order of the operands; BITREV's is B, D, C. -/
def Obligations.OperandTextOrder : Prop :=
  ∀ (n : Nat) (b c d : Int),
    buildInstr n .const [b, c] = .ok (.const b c) ∧ buildInstr n .load [b, c] = .ok (.load b c) ∧
    buildInstr n .store [b, c] = .ok (.store b c) ∧ buildInstr n .bitrev [b, d, c] = .ok (.bitrev b c d)

/-- R74: a Program is made of its lines in source order, one entry for each that is not blank; and one line in error
leaves no Program. That the newline character ends a line and lines are counted from 0, and that blank means the space
alone, is the model's choice (DESIGN CHOICE, log entries 18 and 12). -/
def Obligations.AssemblyIsLineByLineAndAllOrNothing : Prop :=
  ∀ (text : List Char) (lines : List (List Char)), lines = splitAtChar '\n' text →
    (∀ p, assemble text = .ok p →
      ∃ rs : List (Option Instr), rs.length = lines.length ∧
        (∀ (k : Nat) (t : List Char) (r : Option Instr), lines[k]? = some t → rs[k]? = some r →
          assembleLine k t = .ok r ∧ (r = none ↔ cleanLine t = [])) ∧
        p = rs.reduceOption) ∧
    (∀ (k : Nat) (t : List Char) (e : AsmError), lines[k]? = some t → assembleLine k t = .error e →
      ∃ e', assemble text = .error e')

/-! ## Memory and addresses -/

/-- R34: a write stores `v mod 2^64` in one word, and every read of another address answers as before. -/
def Obligations.WriteIsReadBackMaskedAndAlone : Prop :=
  ∀ (m m' : Memory) (a v : Int), Memory.wf m = true → memWrite m a v = .ok m' →
    (∃ w : Word, memRead m' a = .ok w ∧ (w.toNat : Int) = v % 2 ^ 64) ∧
    (∀ k : Int, k ≠ a → memRead m' k = memRead m k)

/-- BITREV's effective address is the exact sum, at most 2^64 + 126, and from 2048 up it is an AddressFault: the spec's
decision D7 (log entry 9). -/
def Obligations.EffectiveAddressIsExactSum : Prop :=
  ∀ (m : Memory) (b d : Int), 0 ≤ b → b < 2048 → 0 ≤ d → d < 128 →
    let base := Memory.read m b.toNat
    effectiveAddress base d = (base.toNat : Int) + d ∧
    0 ≤ effectiveAddress base d ∧ effectiveAddress base d ≤ 2 ^ 64 + 126 ∧
    (2048 ≤ effectiveAddress base d → indexed m b d = .error (.addressFault (effectiveAddress base d))) ∧
    (effectiveAddress base d < 2048 → indexed m b d = .ok (Memory.read m (effectiveAddress base d).toNat))

/-! ## The bit-reverse unit -/

/-- R96: bit `i` of the input becomes bit `63 - i` of the output, as the sum says. -/
def Obligations.ReverseMovesBitToMirror : Prop :=
  ∀ x : Word,
    (∀ i, i < 64 → (rev64 x).getLsbD (63 - i) = x.getLsbD i) ∧
    (rev64 x).toNat = (Finset.range 64).sum (fun i => if x.getLsbD i then 2 ^ (63 - i) else 0)

/-- R97: bit reversal is its own inverse, with the source's three values. -/
def Obligations.ReverseIsItsOwnInverse : Prop :=
  (∀ x : Word, rev64 (rev64 x) = x) ∧ rev64 0 = 0 ∧ rev64 1 = BitVec.ofNat 64 (2 ^ 63) ∧
    rev64 (BitVec.ofNat 64 (2 ^ 63)) = 1

/-! ## The four instructions

Each statement is over every state whose memory is canonical and every operand the encoding admits. In the first clause
the instruction completes; in the others it raises the first bad address of its pseudocode (order: the spec's decision
D6, log entry 8), which shows as the fault record of the spec's decisions D4, D5 and D11 (log entries 4, 7). -/

/-- R92: CONST writes its literal, or raises AddressFault(C). -/
def Obligations.ConstWritesLiteral : Prop :=
  ∀ (s : State) (b c : Int), Memory.wf s.mem = true → (Instr.const b c).wellFormed = true →
    (c < 2048 → ∃ t v, exec (.const b c) s = .next t ∧ completedWith s t c.toNat v ∧ (v.toNat : Int) = b) ∧
    (2048 ≤ c → exec (.const b c) s = .next { s with status := .faulted (.addressFault c) s.off })

/-- R93: LOAD copies the word behind the pointer in B to C, or raises the first bad address of B, M[B], C. -/
def Obligations.LoadCopiesWordBehindPointer : Prop :=
  ∀ (s : State) (b c p : Int), Memory.wf s.mem = true → (Instr.load b c).wellFormed = true →
    p = (Memory.read s.mem b.toNat).toNat →
    (b < 2048 → p < 2048 → c < 2048 →
      ∃ t, exec (.load b c) s = .next t ∧ completedWith s t c.toNat (Memory.read s.mem p.toNat)) ∧
    (2048 ≤ b → exec (.load b c) s = .next { s with status := .faulted (.addressFault b) s.off }) ∧
    (b < 2048 → 2048 ≤ p → exec (.load b c) s = .next { s with status := .faulted (.addressFault p) s.off }) ∧
    (b < 2048 → p < 2048 → 2048 ≤ c →
      exec (.load b c) s = .next { s with status := .faulted (.addressFault c) s.off })

/-- R94: STORE puts `M[M[B]]` at the address `M[M[C]]`, or raises the first bad address of B, M[B], C, M[C], M[M[C]]. -/
def Obligations.StoreWritesThroughBothPointers : Prop :=
  ∀ (s : State) (b c p q dest : Int), Memory.wf s.mem = true → (Instr.store b c).wellFormed = true →
    p = (Memory.read s.mem b.toNat).toNat → q = (Memory.read s.mem c.toNat).toNat →
    dest = (Memory.read s.mem q.toNat).toNat →
    (b < 2048 → p < 2048 → c < 2048 → q < 2048 → dest < 2048 →
      ∃ t, exec (.store b c) s = .next t ∧ completedWith s t dest.toNat (Memory.read s.mem p.toNat)) ∧
    (2048 ≤ b → exec (.store b c) s = .next { s with status := .faulted (.addressFault b) s.off }) ∧
    (b < 2048 → 2048 ≤ p → exec (.store b c) s = .next { s with status := .faulted (.addressFault p) s.off }) ∧
    (b < 2048 → p < 2048 → 2048 ≤ c →
      exec (.store b c) s = .next { s with status := .faulted (.addressFault c) s.off }) ∧
    (b < 2048 → p < 2048 → c < 2048 → 2048 ≤ q →
      exec (.store b c) s = .next { s with status := .faulted (.addressFault q) s.off }) ∧
    (b < 2048 → p < 2048 → c < 2048 → q < 2048 → 2048 ≤ dest →
      exec (.store b c) s = .next { s with status := .faulted (.addressFault dest) s.off })

/-- R100: BITREV writes the reversed word at `M[B] + D` to C, or raises the first bad address of B, M[B] + D, C. The
reversal is said bit by bit. -/
def Obligations.BitrevWritesReversedIndexedWord : Prop :=
  ∀ (s : State) (b c d ea : Int), Memory.wf s.mem = true → (Instr.bitrev b c d).wellFormed = true →
    ea = (Memory.read s.mem b.toNat).toNat + d →
    (b < 2048 → ea < 2048 → c < 2048 →
      ∃ t v, exec (.bitrev b c d) s = .next t ∧ completedWith s t c.toNat v ∧
        ∀ i, i < 64 → v.getLsbD (63 - i) = (Memory.read s.mem ea.toNat).getLsbD i) ∧
    (2048 ≤ b → exec (.bitrev b c d) s = .next { s with status := .faulted (.addressFault b) s.off }) ∧
    (b < 2048 → 2048 ≤ ea →
      exec (.bitrev b c d) s = .next { s with status := .faulted (.addressFault ea) s.off }) ∧
    (b < 2048 → ea < 2048 → 2048 ≤ c →
      exec (.bitrev b c d) s = .next { s with status := .faulted (.addressFault c) s.off })

/-- The addresses that can fault, instruction by instruction, and every one of them is 2048 or more (60_exceptions.md
section 1, "The addresses that can fault are"; the spec's decision D3, log entry 6). -/
def Obligations.AddressFaultsOnlyOnListedAddresses : Prop :=
  ∀ (s t : State) (a : Int) (o : Nat) (M : Int → Int), (∀ x, M x = (Memory.read s.mem x.toNat).toNat) →
    s.status = .running → t.status = .faulted (.addressFault a) o →
    (∀ b c, (Instr.const b c).wellFormed = true → exec (.const b c) s = .next t → 2048 ≤ a ∧ a = c) ∧
    (∀ b c, (Instr.load b c).wellFormed = true → exec (.load b c) s = .next t →
      2048 ≤ a ∧ (a = b ∨ a = M b ∨ a = c)) ∧
    (∀ b c, (Instr.store b c).wellFormed = true → exec (.store b c) s = .next t →
      2048 ≤ a ∧ (a = b ∨ a = M b ∨ a = c ∨ a = M c ∨ a = M (M c))) ∧
    (∀ b c d, (Instr.bitrev b c d).wellFormed = true → exec (.bitrev b c d) s = .next t →
      2048 ≤ a ∧ (a = b ∨ a = M b + d ∨ a = c))

/-- The corner case of R100: BITREV twice with the same cells, in place, restores every word. -/
def Obligations.BitrevTwiceInPlaceRestoresMemory : Prop :=
  ∀ (s : State) (b c d : Int), Memory.wf s.mem = true → (Instr.bitrev b c d).wellFormed = true → b < 2048 → c < 2048 →
    b ≠ c → c = (Memory.read s.mem b.toNat).toNat + d →
    ∃ t u, exec (.bitrev b c d) s = .next t ∧ exec (.bitrev b c d) t = .next u ∧
      (∀ k, Memory.read u.mem k = Memory.read s.mem k) ∧ u.off = s.off + 22

/-- R16, "one word per instruction": whatever the operands, an instruction that gives a next state leaves PROG and every word but the one it stores
to as they were; the word STORE stores to is the one its own operand form computes. -/
def Obligations.ExecLeavesEveryOtherWord : Prop :=
  ∀ s t : State,
    (∀ b c : Int, exec (.const b c) s = .next t → t.prog = s.prog ∧
      ∀ k : Nat, (k : Int) ≠ c → Memory.read t.mem k = Memory.read s.mem k) ∧
    (∀ b c : Int, exec (.load b c) s = .next t → t.prog = s.prog ∧
      ∀ k : Nat, (k : Int) ≠ c → Memory.read t.mem k = Memory.read s.mem k) ∧
    (∀ b c d : Int, exec (.bitrev b c d) s = .next t → t.prog = s.prog ∧
      ∀ k : Nat, (k : Int) ≠ c → Memory.read t.mem k = Memory.read s.mem k) ∧
    (∀ b c : Int, exec (.store b c) s = .next t → t.prog = s.prog ∧
      (∀ dest, indirect s.mem c = .ok dest → ∀ k : Nat, k ≠ dest.toNat → Memory.read t.mem k = Memory.read s.mem k) ∧
      (∀ e, indirect s.mem c = .error e → t.mem = s.mem))

/-- 41_const_load_store.md section 1 and the spec's decisions D4 and D6 (log entries 7, 8): for all operands and states an instruction ends in a next state, and either completes with `off` one
record further and the status as it was, or raises one AddressFault with memory and `off` as they were. -/
def Obligations.ExecCompletesOrRaisesAddressFault : Prop :=
  ∀ (i : Instr) (s : State), ∃ t, exec i s = .next t ∧
    ((t.off = s.off + 11 ∧ t.status = s.status) ∨
      ∃ a : Int, ¬ (0 ≤ a ∧ a < 2048) ∧ t = { s with status := .faulted (.addressFault a) s.off })

/-- R46: what an instruction does depends on memory and its operands alone, not on PROG, `off` or the status: in two states
with the same memory it completes in both with the same memory, or records the same error in both. That an error shows as
the fault record is the spec's decision D4 (log entry 7). -/
def Obligations.ExecReadsOnlyMemoryAndOperands : Prop :=
  ∀ (i : Instr) (s s' : State), s.mem = s'.mem →
    (∃ m, exec i s = .next { s with mem := m, off := s.off + 11 } ∧
      exec i s' = .next { s' with mem := m, off := s'.off + 11 }) ∨
    (∃ e, exec i s = .next { s with status := .faulted e s.off } ∧
      exec i s' = .next { s' with status := .faulted e s'.off })

/-! ## The step -/

/-- 40_fetch_execute.md section 2, with the spec's step of decision D2 (log entry 15): where a record stands at `off` and decodes, the step is exec of that instruction in that state. Moving
past the record is part of exec's completion (`Obligations.ExecCompletesOrRaisesAddressFault`). -/
def Obligations.StepRunsDecodedInstruction : Prop :=
  ∀ (s : State) (i : Instr), s.status = .running → s.off + 11 ≤ s.prog.length →
    decode ((s.prog.drop s.off).take 11) = .ok i → step s = exec i s

/-- R77: a step exists exactly while the status is Running. (That the other three answer with a fault of the model is
log entry 4.) -/
def Obligations.StepExistsExactlyWhileRunning : Prop :=
  ∀ s : State, (∃ t, step s = .next t) ↔ s.status = .running

/-- R78: with fewer than 11 bytes left a step sets Halted and changes nothing else, whatever those bytes are; an empty PROG
halts at the first step with memory all zero. -/
def Obligations.StepHaltsWithoutWholeRecord : Prop :=
  (∀ s : State, s.status = .running → s.prog.length < s.off + 11 → step s = .next { s with status := .halted }) ∧
  (∃ t, step (loadProgram State.reset []) = .next t ∧ t.status = .halted ∧ ∀ a, Memory.read t.mem a = 0)

/-- R79: otherwise the step reads the 11 bytes at `off`, and DecodeLength never arises. -/
def Obligations.StepFetchesWholeRecord : Prop :=
  ∀ s t : State, s.status = .running → s.off + 11 ≤ s.prog.length → step s = .next t →
    (∃ rec, fetch s = some rec ∧ rec.length = 11 ∧ ∀ k, k < 11 → rec[k]? = s.prog[s.off + k]?) ∧
    ∀ n o, t.status ≠ .faulted (.decodeLength n) o

/-- A record with an illegal tag sets the fault record and changes nothing else: the spec's decision D4 (log entry 7). -/
def Obligations.StepFaultsOnUnknownOpcode : Prop :=
  ∀ (s : State) (tag : Nat), s.status = .running → s.off + 11 ≤ s.prog.length →
    slice (leValue ((s.prog.drop s.off).take 11)) 3 0 = tag → tag ≠ 3 → tag ≠ 4 → tag ≠ 9 → tag ≠ 12 →
    step s = .next { s with status := .faulted (.unknownOpcode tag) s.off }

/-- A step that ends in an error sets the fault record with the faulting `off`, changes nothing else and is the last: the
spec's decision D4 (log entry 7). -/
def Obligations.ErrorStepChangesOnlyStatus : Prop :=
  ∀ (s t : State) (e : BlockError) (o : Nat), step s = .next t → t.status = .faulted e o →
    o = s.off ∧ t = { s with status := .faulted e s.off } ∧ ∀ u, step t ≠ .next u

/-- R18, R83: a step that stays Running moves `off` by exactly 11; a step that ends the run moves nothing, on a fault by
the spec's decision D4 (log entry 7). -/
def Obligations.OffsetAdvancesByOneRecordOrStays : Prop :=
  ∀ s t : State, step s = .next t →
    (t.status = .running → t.off = s.off + 11) ∧ (t.status ≠ .running → t.off = s.off ∧ t.mem = s.mem)

/-- R25, R43: no step changes PROG. That PROG is a field of State is the model's choice (log entry 1). -/
def Obligations.StepNeverChangesProgram : Prop :=
  ∀ s t : State, step s = .next t → t.prog = s.prog

/-- R78, R83: a step reads no byte of PROG outside the record at `off`. -/
def Obligations.StepReadsOnlyTheRecordAtOffset : Prop :=
  ∀ s s' t : State, s.mem = s'.mem → s.off = s'.off → s.status = s'.status →
    s.off + 11 ≤ s.prog.length → s'.off + 11 ≤ s'.prog.length →
    (∀ k, k < 11 → s.prog[s.off + k]? = s'.prog[s'.off + k]?) → step s = .next t →
    step s' = .next { t with prog := s'.prog }

/-- The model's own way to place a record (log entry 2): the next step runs the instruction the table word decodes to. -/
def Obligations.PlacedWordIsTheNextInstruction : Prop :=
  ∀ (s : State) (nbits w : Nat) (i : Instr), decodeTableWord nbits w = some i →
    step (s.withFetchWord nbits w) = exec i (s.withFetchWord nbits w)

/-! ## Whole runs, reset and the host -/

/-- The state after VM creation: memory all zero and `off` 0 (R120); that it is Running is the spec's choice (D11, log
entry 4). PROG's value there is the model's (log entry 1) and is not stated. -/
def Obligations.ResetIsFreshMachine : Prop :=
  (∀ a : Int, 0 ≤ a → a < 2048 → memRead State.reset.mem a = .ok 0) ∧ State.reset.off = 0 ∧
    State.reset.status = .running

/-- The invariant holds after VM creation, whatever PROG the host fixes (the model's field, log entry 1). -/
def Obligations.LoadedResetMeetsInvariant : Prop :=
  State.reset.Inv = true ∧ ∀ prog : List Byte, (loadProgram State.reset prog).Inv = true

/-- The legal states (10_state.md: canonical memory of 2048 words, `off` a multiple of 11 inside PROG, a legal status and
fault record, the spec's decisions D5, D11 and D13) are kept by every step, from every legal state. -/
def Obligations.StepKeepsInvariant : Prop :=
  ∀ s t : State, s.Inv = true → step s = .next t → t.Inv = true

/-- The end of a run, which the spec derives (40_fetch_execute.md section 3): from every running state inside its PROG, a run executes the remaining whole records and halts one step later,
or faults at the first record that raises an error, keeping the effects of the records before it; and it then stays
where it is. A run from creation is the case `off = 0`. -/
def Obligations.RunHaltsOrFaultsAtFirstBadRecord : Prop :=
  ∀ (s : State) (N : Nat), s.status = .running → s.off ≤ s.prog.length → N = (s.prog.length - s.off) / 11 →
    ((∀ k, k ≤ N → (runFor k s).status = .running ∧ (runFor k s).off = s.off + 11 * k) ∧
      runFor (N + 1) s = { runFor N s with status := .halted } ∧ (∀ n, N < n → runFor n s = runFor (N + 1) s) ∧
      run s = runFor (N + 1) s) ∨
    (∃ k e, k < N ∧ (∀ j, j ≤ k → (runFor j s).status = .running ∧ (runFor j s).off = s.off + 11 * j) ∧
      runFor (k + 1) s = { runFor k s with status := .faulted e (s.off + 11 * k) } ∧
      (∀ n, k < n → runFor n s = runFor (k + 1) s) ∧ run s = runFor (k + 1) s)

/-- The run interface (40_fetch_execute.md section 1, decision D1): a run never ends Running, from any state at all. -/
def Obligations.RunEndsTheRun : Prop :=
  ∀ s : State, (run s).status ≠ .running

/-- R86: a dump lists the words of the range in address order. -/
def Obligations.DumpListsTheRange : Prop :=
  ∀ (s : State) (start stop : Nat), start ≤ stop → stop ≤ 2048 →
    ∃ l, dump s start stop = .ok l ∧ l.length = stop - start ∧
      ∀ k, k < stop - start → l[k]? = some (Memory.read s.mem (start + k)).toNat

/-- In every state, of whatever status, any other range is refused with BadRange and no list: the spec's decision D9 (log
entry 11). -/
def Obligations.DumpRefusesExactlyBadRanges : Prop :=
  ∀ (s : State) (start stop : Int),
    ((∃ l, dump s start stop = .ok l) ↔ 0 ≤ start ∧ start ≤ stop ∧ stop ≤ 2048) ∧
    (¬ (0 ≤ start ∧ start ≤ stop ∧ stop ≤ 2048) → dump s start stop = .error (.badRange start stop))

/-- Abort stops a running VM for good, keeps M, `off` and PROG, and is no success: the spec's decision D15 (log entry
14). -/
def Obligations.AbortIsTerminalAndKeepsMemory : Prop :=
  ∀ s : State, s.status = .running →
    abort s = { s with status := .aborted } ∧ ¬ (abort s).succeeded ∧ ∀ t, step (abort s) ≠ .next t

/-- Each error comes from its own raiser, under its own cause code: the spec's decision D11 (60_exceptions.md section 1). -/
def Obligations.EachErrorFromItsOwnRaiser : Prop :=
  (∀ bytes e, decode bytes = .error e → causeCode e = 1 ∨ causeCode e = 3) ∧
  (∀ s t e o, step s = .next t → t.status = .faulted e o → causeCode e = 1 ∨ causeCode e = 2) ∧
  (∀ tag b c d e, encodeRaw tag b c d = .error e → causeCode e = 4) ∧
  (∀ s start stop e, dump s start stop = .error e → causeCode e = 5)
end

