-- ==== Sys2Proof/Laws/Memory.lean ====
section
/-! SUPPORT. Data memory: a write is read back, leaves every other word alone and keeps the canonical form. -/

namespace Sys2Proof.Machine

theorem Memory.read_write_other (m : Memory) (a k : Nat) (v : Word) (h : k ≠ a) :
    Memory.read (Memory.write m a v) k = Memory.read m k := by
  induction m with
  | nil => simp only [Memory.write]; split <;> simp [Memory.read, h]
  | cons c m ih =>
    obtain ⟨k', w⟩ := c
    simp only [Memory.write]
    split
    · split <;> simp [Memory.read, h]
    · split
      · next h' => subst h'; split <;> simp [Memory.read, h]
      · simp [Memory.read, ih]

/-- No entry of a canonical memory's tail stands at or below its head's address. -/
theorem Memory.read_eq_unlisted_of_lt (m : Memory) (a : Nat) (h : ∀ c ∈ m, a < c.1) :
    Memory.read m a = Memory.unlisted := by
  induction m with
  | nil => rfl
  | cons c m ih =>
    obtain ⟨k, w⟩ := c
    have hk : a < k := h (k, w) (by simp)
    simp only [Memory.read, if_neg (Nat.ne_of_lt hk)]
    exact ih fun c hc => h c (by simp [hc])

theorem Memory.wf_iff (m : Memory) :
    Memory.wf m = true ↔
      m.Pairwise (fun x y => x.1 < y.1) ∧ ∀ c ∈ m, c.1 < 2048 ∧ c.2 ≠ Memory.unlisted := by
  simp [Memory.wf, List.all_eq_true]

theorem Memory.wf_nil : Memory.wf [] = true := by decide

theorem Memory.wf_cons (k : Nat) (w : Word) (m : Memory) :
    Memory.wf ((k, w) :: m) = true ↔
      (∀ c ∈ m, k < c.1) ∧ k < 2048 ∧ w ≠ Memory.unlisted ∧ Memory.wf m = true := by
  simp only [Memory.wf_iff, List.pairwise_cons, List.mem_cons, forall_eq_or_imp]
  tauto

theorem Memory.read_write_same (m : Memory) (a : Nat) (v : Word) (h : Memory.wf m = true) :
    Memory.read (Memory.write m a v) a = v := by
  induction m with
  | nil => simp only [Memory.write]; split <;> simp_all [Memory.read]
  | cons c m ih =>
    obtain ⟨k, w⟩ := c
    obtain ⟨hlt, -, -, hm⟩ := (Memory.wf_cons k w m).mp h
    simp only [Memory.write]
    split
    · next hak =>
      split
      · next hv =>
        rw [hv]
        exact Memory.read_eq_unlisted_of_lt _ a (by
          intro c hc
          rcases List.mem_cons.mp hc with rfl | hc
          · exact hak
          · exact Nat.lt_trans hak (hlt c hc))
      · simp [Memory.read]
    · split
      · next hak =>
        subst hak
        split
        · next hv => rw [hv]; exact Memory.read_eq_unlisted_of_lt m a hlt
        · simp [Memory.read]
      · next hne => simp [Memory.read, hne, ih hm]

theorem Memory.mem_write (m : Memory) (a : Nat) (v : Word) (c : WordCell) (h : c ∈ Memory.write m a v) :
    c ∈ m ∨ (c = (a, v) ∧ v ≠ Memory.unlisted) := by
  induction m with
  | nil => simp only [Memory.write] at h; split at h <;> simp_all
  | cons d m ih =>
    obtain ⟨k, w⟩ := d
    simp only [Memory.write] at h
    split at h
    · (split at h <;> (simp_all; try tauto))
    · split at h
      · (split at h <;> (simp_all; try tauto))
      · rcases List.mem_cons.mp h with rfl | h
        · simp
        · rcases ih h with h | h
          · exact .inl (by simp [h])
          · exact .inr h

/-- Every memory operation keeps the canonical form. -/
theorem Memory.write_wf (m : Memory) (a : Nat) (v : Word) (h : Memory.wf m = true) (ha : a < 2048) :
    Memory.wf (Memory.write m a v) = true := by
  induction m with
  | nil =>
    simp only [Memory.write]
    split
    · exact Memory.wf_nil
    · next hv => exact (Memory.wf_cons a v []).mpr ⟨by simp, ha, hv, Memory.wf_nil⟩
  | cons c m ih =>
    obtain ⟨k, w⟩ := c
    obtain ⟨hlt, hk, hw, hm⟩ := (Memory.wf_cons k w m).mp h
    simp only [Memory.write]
    split
    · next hak =>
      split
      · exact h
      · next hv =>
        refine (Memory.wf_cons a v _).mpr ⟨?_, ha, hv, h⟩
        intro c hc
        rcases List.mem_cons.mp hc with rfl | hc
        · exact hak
        · exact Nat.lt_trans hak (hlt c hc)
    · split
      · next hak =>
        subst hak
        split
        · exact hm
        · next hv => exact (Memory.wf_cons a v m).mpr ⟨hlt, ha, hv, hm⟩
      · next hnlt hne =>
        refine (Memory.wf_cons k w _).mpr ⟨?_, hk, hw, ih hm⟩
        intro c hc
        rcases Memory.mem_write m a v c hc with hc | ⟨rfl, -⟩
        · exact hlt c hc
        · omega

theorem Memory.wf_reset : Memory.wf State.reset.mem = true := by decide

end Sys2Proof.Machine
end

