-- ==== Sys2Proof/Laws/State.lean ====
section
/-! SUPPORT. One lemma per field per state update, so that no proof unfolds a record update. -/

namespace Sys2Proof.Machine

@[simp] theorem retire_mem (s : State) (m : Memory) : (s.retire m).mem = m := rfl
@[simp] theorem retire_off (s : State) (m : Memory) : (s.retire m).off = s.off + 11 := rfl
@[simp] theorem retire_status (s : State) (m : Memory) : (s.retire m).status = s.status := rfl
@[simp] theorem retire_prog (s : State) (m : Memory) : (s.retire m).prog = s.prog := rfl

@[simp] theorem takeError_mem (s : State) (e : BlockError) : (s.takeError e).mem = s.mem := rfl
@[simp] theorem takeError_off (s : State) (e : BlockError) : (s.takeError e).off = s.off := rfl
@[simp] theorem takeError_status (s : State) (e : BlockError) : (s.takeError e).status = .faulted e s.off := rfl
@[simp] theorem takeError_prog (s : State) (e : BlockError) : (s.takeError e).prog = s.prog := rfl

@[simp] theorem halt_mem (s : State) : s.halt.mem = s.mem := rfl
@[simp] theorem halt_off (s : State) : s.halt.off = s.off := rfl
@[simp] theorem halt_status (s : State) : s.halt.status = .halted := rfl
@[simp] theorem halt_prog (s : State) : s.halt.prog = s.prog := rfl

@[simp] theorem loadProgram_mem (s : State) (p : List Byte) : (loadProgram s p).mem = s.mem := rfl
@[simp] theorem loadProgram_off (s : State) (p : List Byte) : (loadProgram s p).off = s.off := rfl
@[simp] theorem loadProgram_status (s : State) (p : List Byte) : (loadProgram s p).status = s.status := rfl
@[simp] theorem loadProgram_prog (s : State) (p : List Byte) : (loadProgram s p).prog = p := rfl

@[simp] theorem withFetchWord_mem (s : State) (n w : Nat) : (s.withFetchWord n w).mem = s.mem := rfl
@[simp] theorem withFetchWord_off (s : State) (n w : Nat) : (s.withFetchWord n w).off = s.off := rfl
@[simp] theorem withFetchWord_status (s : State) (n w : Nat) : (s.withFetchWord n w).status = .running := rfl
@[simp] theorem withFetchWord_prog (s : State) (n w : Nat) :
    (s.withFetchWord n w).prog = placeRecord s.prog s.off (tableRecord n w) := rfl

@[simp] theorem abort_mem (s : State) : (abort s).mem = s.mem := by unfold abort; split <;> rfl
@[simp] theorem abort_off (s : State) : (abort s).off = s.off := by unfold abort; split <;> rfl
@[simp] theorem abort_prog (s : State) : (abort s).prog = s.prog := by unfold abort; split <;> rfl
theorem abort_status_of_running (s : State) (h : s.status = .running) : (abort s).status = .aborted := by
  simp [abort, h]
theorem abort_of_over (s : State) (h : s.status ≠ .running) : abort s = s := by
  unfold abort; split <;> first | rfl | contradiction

end Sys2Proof.Machine
end

