-- ==== Sys2Proof/Laws/Access.lean ====
section
/-! SUPPORT. One lemma for each shared operation: what it answers when it succeeds, what when it raises, and that it
does nothing else. Proofs cite these instead of unfolding the operation. -/

namespace Sys2Proof.Machine

/-- A sequence of two accesses succeeds exactly when both do. -/
theorem bind_eq_ok {α β : Type} (x : Except BlockError α) (f : α → Except BlockError β) (b : β) :
    (x >>= f) = .ok b ↔ ∃ a, x = .ok a ∧ f a = .ok b := by
  cases x <;> simp [bind, Except.bind]

/-- A sequence of two accesses raises the first error it meets. -/
theorem bind_eq_error {α β : Type} (x : Except BlockError α) (f : α → Except BlockError β) (e : BlockError) :
    (x >>= f) = .error e ↔ x = .error e ∨ ∃ a, x = .ok a ∧ f a = .error e := by
  cases x <;> simp [bind, Except.bind]

theorem memRead_eq_ok (m : Memory) (a : Int) (v : Word) :
    memRead m a = .ok v ↔ inMemory a ∧ Memory.read m a.toNat = v := by
  unfold memRead
  split
  · next h => exact ⟨fun e => ⟨h, Except.ok.inj e⟩, fun e => congrArg _ e.2⟩
  · next h => exact ⟨nofun, fun e => absurd e.1 h⟩

theorem memRead_eq_error (m : Memory) (a : Int) (e : BlockError) :
    memRead m a = .error e ↔ ¬ inMemory a ∧ e = .addressFault a := by
  unfold memRead
  split
  · next h => exact ⟨nofun, fun e => absurd h e.1⟩
  · next h => exact ⟨fun e => ⟨h, (Except.error.inj e).symm⟩, fun e => congrArg _ e.2.symm⟩

theorem memWrite_eq_ok (m : Memory) (a v : Int) (m' : Memory) :
    memWrite m a v = .ok m' ↔ inMemory a ∧ m' = Memory.write m a.toNat (BitVec.ofInt 64 v) := by
  unfold memWrite
  split
  · next h => exact ⟨fun e => ⟨h, (Except.ok.inj e).symm⟩, fun e => congrArg _ e.2.symm⟩
  · next h => exact ⟨nofun, fun e => absurd e.1 h⟩

theorem memWrite_eq_error (m : Memory) (a v : Int) (e : BlockError) :
    memWrite m a v = .error e ↔ ¬ inMemory a ∧ e = .addressFault a := by
  unfold memWrite
  split
  · next h => exact ⟨nofun, fun e => absurd h e.1⟩
  · next h => exact ⟨fun e => ⟨h, (Except.error.inj e).symm⟩, fun e => congrArg _ e.2.symm⟩

theorem indirect_eq_ok (m : Memory) (b : Int) (v : Word) :
    indirect m b = .ok v ↔
      ∃ p, memRead m b = .ok p ∧ memRead m (addressOf p) = .ok v :=
  bind_eq_ok _ _ _

theorem indirect_eq_error (m : Memory) (b : Int) (e : BlockError) :
    indirect m b = .error e ↔
      memRead m b = .error e ∨ ∃ p, memRead m b = .ok p ∧ memRead m (addressOf p) = .error e :=
  bind_eq_error _ _ _

theorem indexed_eq_ok (m : Memory) (b d : Int) (v : Word) :
    indexed m b d = .ok v ↔
      ∃ p, memRead m b = .ok p ∧ memRead m (effectiveAddress p d) = .ok v :=
  bind_eq_ok _ _ _

theorem indexed_eq_error (m : Memory) (b d : Int) (e : BlockError) :
    indexed m b d = .error e ↔
      memRead m b = .error e ∨ ∃ p, memRead m b = .ok p ∧ memRead m (effectiveAddress p d) = .error e :=
  bind_eq_error _ _ _

/-- A word written back as a number is that word: `mask_64` changes no word. -/
@[simp] theorem ofInt_addressOf (w : Word) : BitVec.ofInt 64 (addressOf w) = w := by
  simp [addressOf]

theorem addressOf_nonneg (w : Word) : 0 ≤ addressOf w := Int.natCast_nonneg _

theorem addressOf_lt (w : Word) : addressOf w < 2 ^ 64 := by
  have := w.isLt
  simp only [addressOf]
  exact_mod_cast this

/-- How an instruction can end: completed with the memory its write made, or with its first error and no write. -/
theorem conclude_eq_next (s t : State) (r : Except BlockError Memory) :
    conclude s r = .next t ↔ (∃ m, r = .ok m ∧ t = s.retire m) ∨ ∃ e, r = .error e ∧ t = s.takeError e := by
  cases r <;> simp [conclude, eq_comm]

theorem fetch_eq_none (s : State) : fetch s = none ↔ s.prog.length - s.off < 11 := by
  unfold fetch; split <;> simp_all

theorem fetch_eq_some (s : State) (rec : List Byte) :
    fetch s = some rec ↔ 11 ≤ s.prog.length - s.off ∧ rec = (s.prog.drop s.off).take 11 := by
  unfold fetch; split <;> simp_all [eq_comm]

/-- What one step can do: halt, take DEC's error, or run the decoded instruction; and only while Running. -/
theorem step_eq_next (s t : State) :
    step s = .next t ↔
      s.status = .running ∧
        ((fetch s = none ∧ t = s.halt) ∨
          ∃ rec, fetch s = some rec ∧
            ((∃ e, decode rec = .error e ∧ t = s.takeError e) ∨ ∃ i, decode rec = .ok i ∧ exec i s = .next t)) := by
  unfold step
  split
  · simp_all
  · simp_all
  · simp_all
  · next h =>
    simp only [h, true_and]
    split
    · next h1 => simp [h1, eq_comm]
    · next rec h1 =>
      split
      · next e h2 => simp [h1, h2, eq_comm]
      · next i h2 => simp [h1, h2]

end Sys2Proof.Machine
end

