-- ==== Sys2Proof/Laws/Codec.lean ====
section
/-! SUPPORT. Bytes, numbers and masks of a record: small lemmas for the encoding proofs. -/

namespace Sys2Proof

theorem length_leBytes (n v : Nat) : (leBytes n v).length = n := by
  induction n generalizing v with
  | zero => rfl
  | succ n ih => simp [leBytes, ih]

theorem leValue_leBytes (n v : Nat) : leValue (leBytes n v) = v % 256 ^ n := by
  induction n generalizing v with
  | zero => simp [leBytes, leValue, Nat.mod_one]
  | succ n ih =>
    simp only [leBytes, leValue, ih, BitVec.toNat_ofNat]
    rw [show 2 ^ 8 = 256 from rfl, Nat.pow_succ', Nat.mod_mul]

theorem leValue_lt (bs : List Byte) : leValue bs < 256 ^ bs.length := by
  induction bs with
  | nil => simp [leValue]
  | cons b bs ih =>
    have := b.isLt
    simp only [leValue, List.length_cons, Nat.pow_succ]
    omega

theorem leBytes_leValue (bs : List Byte) : leBytes bs.length (leValue bs) = bs := by
  induction bs with
  | nil => rfl
  | cons b bs ih =>
    have hb := b.isLt
    simp only [List.length_cons, leBytes, leValue]
    congr 1
    · apply BitVec.eq_of_toNat_eq
      simp only [BitVec.toNat_ofNat]
      omega
    · rw [show (b.toNat + 256 * leValue bs) / 256 = leValue bs by omega, ih]

theorem maskField_lt (w : Nat) (x : Int) : maskField w x < 2 ^ w := by
  have h : (0 : Int) < 2 ^ w := by positivity
  have h1 := Int.emod_lt_of_pos x h
  have h0 := Int.emod_nonneg x (ne_of_gt h)
  unfold maskField
  zify
  rw [Int.toNat_of_nonneg h0]
  exact_mod_cast h1

theorem maskField_of_fits (w : Nat) (x : Int) (h : fitsField w x) : (maskField w x : Int) = x := by
  unfold maskField
  rw [Int.emod_eq_of_lt h.1 h.2, Int.toNat_of_nonneg h.1]

theorem slice_lt (v hi lo : Nat) : slice v hi lo < 2 ^ (hi - lo + 1) :=
  Nat.mod_lt _ (by positivity)

theorem wellFormed_const (b c : Int) :
    (Instr.const b c).wellFormed = true ↔ (0 ≤ b ∧ b < 2 ^ 23) ∧ 0 ≤ c ∧ c < 2 ^ 26 := decide_eq_true_iff

theorem wellFormed_load (b c : Int) :
    (Instr.load b c).wellFormed = true ↔ (0 ≤ b ∧ b < 2 ^ 26) ∧ 0 ≤ c ∧ c < 2 ^ 26 := decide_eq_true_iff

theorem wellFormed_store (b c : Int) :
    (Instr.store b c).wellFormed = true ↔ (0 ≤ b ∧ b < 2 ^ 26) ∧ 0 ≤ c ∧ c < 2 ^ 26 := decide_eq_true_iff

theorem wellFormed_bitrev (b c d : Int) :
    (Instr.bitrev b c d).wellFormed = true ↔ (0 ≤ b ∧ b < 2 ^ 26) ∧ (0 ≤ c ∧ c < 2 ^ 26) ∧ 0 ≤ d ∧ d < 2 ^ 7 :=
  decide_eq_true_iff

theorem length_encode (i : Instr) : (encode i).length = 11 := length_leBytes _ _

end Sys2Proof
end

