-- ==== Sys2Proof/Laws/PerInstr.lean ====
section
/-! SUPPORT. The per-instruction family RecordTag: the record ENC builds carries the instruction's own tag in its four
low bits, whatever the operands (30_encoding.md R45, R49). -/

namespace Sys2Proof.Laws.RecordTag

/-- The four low bits of the record are the tag of the instruction. -/
def Statement (i : Instr) : Prop := slice (encodeRecord i) 3 0 = i.tag

/-- Fields placed from bit 4 up do not reach the tag. -/
theorem slice_or_shiftLeft (a x k : Nat) (h : 4 ≤ k) : slice (a ||| (x <<< k)) 3 0 = slice a 3 0 := by
  obtain ⟨j, rfl⟩ := Nat.exists_eq_add_of_le h
  simp only [slice, Nat.shiftRight_zero]
  rw [show 2 ^ (3 - 0 + 1) = 2 ^ 4 from rfl, Nat.or_mod_two_pow, Nat.shiftLeft_eq, Nat.pow_add,
    Nat.mul_comm x, Nat.mul_assoc, Nat.mul_mod_right, Nat.or_zero]

theorem const (b c : Int) : Statement (.const b c) := by
  simp only [Statement, encodeRecord]
  rw [slice_or_shiftLeft _ _ _ (by omega), slice_or_shiftLeft _ _ _ (by omega)]; rfl

theorem load (b c : Int) : Statement (.load b c) := by
  simp only [Statement, encodeRecord]
  rw [slice_or_shiftLeft _ _ _ (by omega), slice_or_shiftLeft _ _ _ (by omega),
    slice_or_shiftLeft _ _ _ (by omega)]; rfl

theorem store (b c : Int) : Statement (.store b c) := by
  simp only [Statement, encodeRecord]
  rw [slice_or_shiftLeft _ _ _ (by omega), slice_or_shiftLeft _ _ _ (by omega),
    slice_or_shiftLeft _ _ _ (by omega)]; rfl

theorem bitrev (b c d : Int) : Statement (.bitrev b c d) := by
  simp only [Statement, encodeRecord]
  rw [slice_or_shiftLeft _ _ _ (by omega), slice_or_shiftLeft _ _ _ (by omega),
    slice_or_shiftLeft _ _ _ (by omega)]; rfl

end Sys2Proof.Laws.RecordTag
end

