-- ==== Sys2Proof/Laws/Safety.lean ====
section
/-! SUPPORT. What the invariant says, part by part and in numerals. -/

namespace Sys2Proof.Machine

theorem inv_iff (s : State) :
    s.Inv = true ↔
      Memory.wf s.mem = true ∧ s.off % 11 = 0 ∧ s.off ≤ s.prog.length ∧ statusLegal s = true := by
  simp [State.Inv, and_assoc]

theorem vmCause_unknownOpcode (t : Nat) :
    vmCause (.unknownOpcode t) = true ↔ t < 16 ∧ t ≠ 3 ∧ t ≠ 4 ∧ t ≠ 9 ∧ t ≠ 12 := by
  simp only [vmCause, Bool.and_eq_true, decide_eq_true_eq]

theorem vmCause_addressFault (a : Int) :
    vmCause (.addressFault a) = true ↔ 2048 ≤ a ∧ a ≤ 2 ^ 64 + 126 := by
  simp only [vmCause, Bool.and_eq_true, decide_eq_true_eq]; rfl

theorem statusLegal_running (s : State) (h : s.status = .running) : statusLegal s = true := by
  simp [statusLegal, h]

theorem statusLegal_halted (s : State) (h : s.status = .halted) :
    statusLegal s = true ↔ s.prog.length < s.off + 11 := by
  simp only [statusLegal, h, decide_eq_true_eq, Config.recBytes]; omega

theorem statusLegal_faulted (s : State) (e : BlockError) (o : Nat) (h : s.status = .faulted e o) :
    statusLegal s = true ↔ vmCause e = true ∧ o = s.off ∧ s.off + 11 ≤ s.prog.length := by
  simp only [statusLegal, h, Bool.and_eq_true, decide_eq_true_eq, and_assoc]

end Sys2Proof.Machine
end

