-- ==== Sys2Proof/Tests/Slice0.lean ====
section
/-! SUPPORT. The model's own checks: well-formedness, words written out from the spec's encodings and vectors
(95_test_vectors.md), one step of each instruction, and a witness for the hypotheses of every statement that has some. -/

namespace Sys2Proof.Tests

open Sys2Proof.Machine

/-- The next state of an outcome, if it has one: outcomes themselves are not comparable. -/
def nextOf (o : Host.Outcome State Fault Refusal) : Option State :=
  match o with
  | .next t => some t
  | .fault _ => none
  | .refused _ => none

/-- A fresh Running machine with the given cells, at offset 0 of the given PROG. -/
def machine (mem : Memory) (prog : List Byte) : State := { State.reset with mem := mem, prog := prog }

/-- The same machine stopped by an address fault at offset 0. -/
def stopped (mem : Memory) (prog : List Byte) (a : Int) : State :=
  { machine mem prog with status := .faulted (.addressFault a) 0 }

/-- The same machine after one completed record, with the given cells. -/
def advanced (mem : Memory) (prog : List Byte) : State := { machine mem prog with off := 11 }

/-! ## WellFormed refuses an ill-formed term for each of its checks -/

theorem test_wellFormed_const :
    (Instr.const 8388608 0).wellFormed = false ∧ (Instr.const (-1) 0).wellFormed = false ∧
      (Instr.const 0 67108864).wellFormed = false ∧ (Instr.const 0 (-1)).wellFormed = false ∧
      (Instr.const 8388607 67108863).wellFormed = true := by decide

theorem test_wellFormed_load :
    (Instr.load 67108864 0).wellFormed = false ∧ (Instr.load (-1) 0).wellFormed = false ∧
      (Instr.load 0 67108864).wellFormed = false ∧ (Instr.load 0 (-1)).wellFormed = false ∧
      (Instr.load 67108863 67108863).wellFormed = true := by decide

theorem test_wellFormed_store :
    (Instr.store 67108864 0).wellFormed = false ∧ (Instr.store (-1) 0).wellFormed = false ∧
      (Instr.store 0 67108864).wellFormed = false ∧ (Instr.store 0 (-1)).wellFormed = false ∧
      (Instr.store 67108863 67108863).wellFormed = true := by decide

theorem test_wellFormed_bitrev :
    (Instr.bitrev 67108864 0 0).wellFormed = false ∧ (Instr.bitrev (-1) 0 0).wellFormed = false ∧
      (Instr.bitrev 0 67108864 0).wellFormed = false ∧ (Instr.bitrev 0 (-1) 0).wellFormed = false ∧
      (Instr.bitrev 0 0 128).wellFormed = false ∧ (Instr.bitrev 0 0 (-1)).wellFormed = false ∧
      (Instr.bitrev 67108863 67108863 127).wellFormed = true := by decide

/-! ## Records written out in bytes (95_test_vectors.md sections 1 to 3) -/

/-- S6, and the CONST row whose ignored region starts inside byte 6. -/
theorem test_decode_const :
    decode [0xE4, 0x35, 0x00, 0x48, 0x0E, 0, 0, 0, 0, 0, 0] = .ok (.const 862 457) ∧
      decode [0xE4, 0x35, 0x00, 0x48, 0x0E, 0xE0, 0xFF, 0xFF, 0xFF, 0xFF, 0xFF] = .ok (.const 862 66847177) := by
  decide

/-- S7, and the same record with every ignored bit from 56 to 62 set. -/
theorem test_decode_load :
    decode [0xDC, 0x13, 0x00, 0x80, 0x79, 0, 0, 0, 0, 0, 0] = .ok (.load 317 486) ∧
      decode [0xDC, 0x13, 0x00, 0x80, 0x79, 0, 0, 0x7F, 0xFF, 0xFF, 0xFF] = .ok (.load 317 486) := by decide

/-- S8, and the same record with bit 63 set. -/
theorem test_decode_store :
    decode [0x23, 0x35, 0x00, 0xC0, 0xDB, 0, 0, 0, 0, 0, 0] = .ok (.store 850 879) ∧
      decode [0x23, 0x35, 0x00, 0xC0, 0xDB, 0, 0, 0x80, 0, 0, 0] = .ok (.store 850 879) := by decide

/-- S9, and the same record with bit 63 set. -/
theorem test_decode_bitrev :
    decode [0x59, 0x07, 0x00, 0x80, 0x64, 0, 0, 0x2B, 0, 0, 0] = .ok (.bitrev 117 402 43) ∧
      decode [0x59, 0x07, 0x00, 0x80, 0x64, 0, 0, 0xAB, 0, 0, 0] = .ok (.bitrev 117 402 43) := by decide

/-- The DEC error rows, empty string and wrong lengths before any tag. -/
theorem test_decode_errors :
    decode [] = .error (.decodeLength 0) ∧ decode [0xFF] = .error (.decodeLength 1) ∧
      decode [0xDC, 0x13, 0x00, 0x80, 0x79, 0, 0, 0, 0, 0, 0, 0] = .error (.decodeLength 12) ∧
      decode [0xC5, 0, 0, 0, 0, 0, 0, 0, 0, 0, 0] = .error (.unknownOpcode 5) ∧
      decode [0x0F, 0xFF, 0xFF, 0xFF, 0xFF, 0xFF, 0xFF, 0xFF, 0xFF, 0xFF, 0xFF] = .error (.unknownOpcode 15) := by
  decide

/-- ENC rows of section 2: a negative literal, a truncated one, and a maximal record. -/
theorem test_encode :
    encode (.const (-1) 5) = [0xF4, 0xFF, 0xFF, 0x2F, 0, 0, 0, 0, 0, 0, 0] ∧
      encode (.store 67108864 3) = [0x03, 0x00, 0x00, 0xC0, 0, 0, 0, 0, 0, 0, 0] ∧
      encode (.load (-1) (-2)) = [0xFC, 0xFF, 0xFF, 0xBF, 0xFF, 0xFF, 0xFF, 0, 0, 0, 0] ∧
      encode (.bitrev 67108863 67108863 127) = [0xF9, 0xFF, 0xFF, 0xFF, 0xFF, 0xFF, 0xFF, 0x7F, 0, 0, 0] := by decide

/-- The number of S6 as the spec audits it: `r = 0xE480035E4`. -/
theorem test_decodeTableWord :
    decodeTableWord 88 0xE480035E4 = some (.const 862 457) ∧ decodeTableWord 8 0x0C = some (.load 0 0) ∧
      decodeTableWord 8 0x05 = none := by decide

/-- Section 4: rev64. -/
theorem test_rev64 :
    rev64 0x0123456789ABCDEF = 0xF7B3D591E6A2C480 ∧ rev64 0x7FFFFF = 0xFFFFFE0000000000 ∧
      rev64 0xFFFFFFFF = 0xFFFFFFFF00000000 := by decide

/-! ## One step of each instruction (95_test_vectors.md section 5) -/

/-- CONST last address; CONST out of range. -/
theorem test_step_const :
    nextOf (step (machine [] [0x74, 0, 0, 0xF8, 0x3F, 0, 0, 0, 0, 0, 0])) =
        some (advanced [(2047, 7)] [0x74, 0, 0, 0xF8, 0x3F, 0, 0, 0, 0, 0, 0]) ∧
      nextOf (step (machine [] [0x14, 0, 0, 0, 0x40, 0, 0, 0, 0, 0, 0])) =
        some (stopped [] [0x14, 0, 0, 0, 0x40, 0, 0, 0, 0, 0, 0] 2048) := by decide

/-- LOAD C = B; LOAD pointer 2^64 - 1. -/
theorem test_step_load :
    nextOf (step (machine [(10, 20), (20, 7)] [0xAC, 0, 0, 0x80, 0x02, 0, 0, 0, 0, 0, 0])) =
        some (advanced [(10, 7), (20, 7)] [0xAC, 0, 0, 0x80, 0x02, 0, 0, 0, 0, 0, 0]) ∧
      nextOf (step (machine [(10, 0xFFFFFFFFFFFFFFFF)] [0xAC, 0, 0, 0, 0, 0, 0, 0, 0, 0, 0])) =
        some (stopped [(10, 0xFFFFFFFFFFFFFFFF)] [0xAC, 0, 0, 0, 0, 0, 0, 0, 0, 0, 0] 18446744073709551615) := by
  decide

/-- STORE basic; STORE two bad addresses, the value side first. -/
theorem test_step_store :
    nextOf (step (machine [(1, 10), (2, 20), (10, 42), (20, 30)] [0x13, 0, 0, 0x80, 0, 0, 0, 0, 0, 0, 0])) =
        some (advanced [(1, 10), (2, 20), (10, 42), (20, 30), (30, 42)] [0x13, 0, 0, 0x80, 0, 0, 0, 0, 0, 0, 0]) ∧
      nextOf (step (machine [(1, 7777)] [0x13, 0, 0, 0xC0, 0xC3, 0x09, 0, 0, 0, 0, 0])) =
        some (stopped [(1, 7777)] [0x13, 0, 0, 0xC0, 0xC3, 0x09, 0, 0, 0, 0, 0] 7777) := by decide

/-- BITREV basic; BITREV base 2^64 - 1 with D = 1 does not wrap. -/
theorem test_step_bitrev :
    nextOf (step (machine [(50, 100), (103, 4)] [0x29, 0x03, 0, 0xC0, 0x32, 0, 0, 0x03, 0, 0, 0])) =
        some (advanced [(50, 100), (103, 4), (203, 0x2000000000000000)]
          [0x29, 0x03, 0, 0xC0, 0x32, 0, 0, 0x03, 0, 0, 0]) ∧
      nextOf (step (machine [(7, 0xFFFFFFFFFFFFFFFF)] [0x79, 0, 0, 0, 0x02, 0, 0, 0x01, 0, 0, 0])) =
        some (stopped [(7, 0xFFFFFFFFFFFFFFFF)] [0x79, 0, 0, 0, 0x02, 0, 0, 0x01, 0, 0, 0] 18446744073709551616) := by
  decide

/-- Section 6: ten bytes of anything halt; an illegal tag faults at its own offset; a halted VM has no step. -/
theorem test_step_ends :
    nextOf (step (machine [] [9, 9, 9, 9, 9, 9, 9, 9, 9, 9])) =
        some { machine [] [9, 9, 9, 9, 9, 9, 9, 9, 9, 9] with status := .halted } ∧
      nextOf (step (machine [] [5, 0, 0, 0, 0, 0, 0, 0, 0, 0, 0])) =
        some { machine [] [5, 0, 0, 0, 0, 0, 0, 0, 0, 0, 0] with status := .faulted (.unknownOpcode 5) 0 } ∧
      nextOf (step (machine [] []).halt) = none := by decide

/-- The placed record is the next one run (CONST 862, 457 and its cell). -/
theorem test_withFetchWord :
    (nextOf (step (State.reset.withFetchWord 88 0xE480035E4))).map (fun t => t.mem) = some [(457, 862)] := by decide

/-! ## Assembly notation (95_test_vectors.md section 7) -/

theorem test_assemble_lines :
    assemble "  const 862 ,457   ; comment\n; only a comment\n\nBITREV 117, 43, 402\nCONST -5, +3".toList =
      .ok [.const 862 457, .bitrev 117 402 43, .const (-5) 3] := by decide

theorem test_assemble_errors :
    assemble "CONST 1".toList = .error (.wrongArgumentCount 0 .const 2) ∧
      assemble "BITREV 1,2".toList = .error (.wrongArgumentCount 0 .bitrev 3) ∧
      assemble "FOO 1,2".toList = .error (.unknownInstruction 0 "FOO".toList) ∧
      assemble "CONST 1, x".toList = .error (.nonIntegerArgument 0 " x".toList) ∧
      assemble "CONST 1,,2".toList = .error (.nonIntegerArgument 0 []) ∧
      assemble "CONST 1.5, 2".toList = .error (.nonIntegerArgument 0 " 1.5".toList) ∧
      assemble "9 CONST".toList = .error (.unparsableLine 0 "9 CONST".toList) ∧
      assemble "CONST 1, 2\nLOAD 1, 2, 3".toList = .error (.wrongArgumentCount 1 .load 2) := by decide

/-! ## Witnesses: concrete values that meet the hypotheses of each statement, clause by clause, at their boundaries -/

theorem witness_DecodeReadsFieldsOfTag :
    (List.replicate 12 (4 : Byte)).length ≠ 11 ∧
      (∀ a ∈ [4, 12, 3, 9], ∀ hi ∈ [0, 0xF], ([BitVec.ofNat 8 (a + 16 * hi), 0, 0, 0, 0, 0, 0, 0, 0, 0, 0] : List Byte).length = 11 ∧
        slice (leValue [BitVec.ofNat 8 (a + 16 * hi), 0, 0, 0, 0, 0, 0, 0, 0, 0, 0]) 3 0 = a) ∧
      (slice (leValue [0xFF, 0, 0, 0, 0, 0, 0, 0, 0, 0, 0]) 3 0 = 15) := by decide

theorem witness_DecodedOperandsFitFields :
    decode [0xF9, 0xFF, 0xFF, 0xFF, 0xFF, 0xFF, 0xFF, 0x7F, 0, 0, 0] = .ok (.bitrev 67108863 67108863 127) := by decide

theorem witness_DecodeIgnoresBitsOutsideFields :
    (∀ a ∈ [4, 12, 3, 9], ([BitVec.ofNat 8 a, 0, 0, 0, 0, 0, 0xFF, 0xFF, 0xFF, 0xFF, 0xFF] : List Byte).length = 11 ∧
      slice (leValue [BitVec.ofNat 8 a, 0, 0, 0, 0, 0, 0xFF, 0xFF, 0xFF, 0xFF, 0xFF]) 3 0 = a) := by decide

theorem witness_RecordByteViews :
    8388607 = maskField 23 (-1) ∧ 67108863 = maskField 26 (-1) ∧ 127 = maskField 7 (-1) := by decide

theorem witness_RawTagOutsideOpcodesIsContractError :
    ∀ tag ∈ [0, 2, 5, 8, 10, 11, 13, 16], tag ≠ 3 ∧ tag ≠ 4 ∧ tag ≠ 9 ∧ tag ≠ 12 := by decide

theorem witness_DecodeUndoesEncode :
    (Instr.const 8388607 67108863).wellFormed = true ∧ (Instr.load 67108863 0).wellFormed = true ∧
      (Instr.store 0 67108863).wellFormed = true ∧ (Instr.bitrev 67108863 0 127).wellFormed = true := by decide

theorem witness_EncodeUndoesDecodeOnlyWithoutIgnoredBits :
    decode [4, 0, 0, 0, 0, 0, 0x20, 0, 0, 0, 0] = .ok (.const 0 0) ∧
      decode [12, 0, 0, 0, 0, 0, 0, 1, 0, 0, 0] = .ok (.load 0 0) ∧
      decode [3, 0, 0, 0, 0, 0, 0, 1, 0, 0, 0] = .ok (.store 0 0) ∧
      decode [9, 0, 0, 0, 0, 0, 0, 0x80, 0, 0, 0] = .ok (.bitrev 0 0 0) := by decide

theorem witness_ArgumentCountIsEnforced :
    ([1, 2] : List Int).length = 2 ∧ ([1, 2, 3] : List Int).length = 3 ∧ ([1] : List Int).length ≠ 2 ∧
      ([1, 2] : List Int).length ≠ 3 := by decide

theorem witness_AssemblyIsLineByLineAndAllOrNothing :
    assemble "LOAD 1, 2\n".toList = .ok [.load 1 2] ∧
      splitAtChar '\n' "LOAD 1, 2\n".toList = ["LOAD 1, 2".toList, []] ∧
      (splitAtChar '\n' "; c\nLOAD 1".toList)[1]? = some "LOAD 1".toList ∧
      assembleLine 1 "LOAD 1".toList = .error (.wrongArgumentCount 1 .load 2) := by decide

theorem witness_WriteIsReadBackMaskedAndAlone :
    Memory.wf [(5, 9)] = true ∧ memWrite [(5, 9)] 2047 (-1) = .ok [(5, 9), (2047, 0xFFFFFFFFFFFFFFFF)] ∧
      memWrite [(5, 9)] 5 0 = .ok [] := by decide

theorem witness_EffectiveAddressIsExactSum :
    (effectiveAddress (Memory.read [(7, 2047)] 7) 0 < 2048 ∧ 2048 ≤ effectiveAddress (Memory.read [(7, 2047)] 7) 1) ∧
      (0 : Int) ≤ 2047 ∧ (2047 : Int) < 2048 ∧ (0 : Int) ≤ 127 ∧ (127 : Int) < 128 := by decide

theorem witness_ConstWritesLiteral :
    Memory.wf [(5, 9)] = true ∧ (Instr.const 8388607 2047).wellFormed = true ∧ (2047 : Int) < 2048 ∧
      (Instr.const 0 2048).wellFormed = true := by decide

/-- Completion, then the faults of B, M[B] and C, each at 2048. -/
theorem witness_LoadCopiesWordBehindPointer :
    Memory.wf [(10, 2047), (11, 2048)] = true ∧
      ((Instr.load 10 2047).wellFormed = true ∧ (Memory.read [(10, 2047), (11, 2048)] 10).toNat < 2048) ∧
      (Instr.load 2048 0).wellFormed = true ∧
      ((Instr.load 11 0).wellFormed = true ∧ 2048 ≤ (Memory.read [(10, 2047), (11, 2048)] 11).toNat) ∧
      (Instr.load 10 2048).wellFormed = true := by decide

/-- Completion, then the faults of B, M[B], C, M[C] and M[M[C]], each at 2048. -/
theorem witness_StoreWritesThroughBothPointers :
    Memory.wf [(1, 10), (2, 20), (3, 2048), (4, 21), (20, 2047), (21, 2048)] = true ∧
      (∀ p ∈ [((1 : Int), (2 : Int)), (2048, 2), (3, 2), (1, 2048), (1, 3), (1, 4)],
        (Instr.store p.1 p.2).wellFormed = true) ∧
      (let m : Memory := [(1, 10), (2, 20), (3, 2048), (4, 21), (20, 2047), (21, 2048)]
       (Memory.read m 1).toNat = 10 ∧ (Memory.read m 2).toNat = 20 ∧ (Memory.read m 20).toNat = 2047 ∧
         (Memory.read m 3).toNat = 2048 ∧ (Memory.read m 4).toNat = 21 ∧ (Memory.read m 21).toNat = 2048) := by decide

/-- Completion at base + D = 2047, then the faults of B, base + D and C, each at 2048. -/
theorem witness_BitrevWritesReversedIndexedWord :
    Memory.wf [(7, 2047)] = true ∧ (Memory.read [(7, 2047)] 7).toNat = 2047 ∧
      (∀ p ∈ [((7 : Int), (8 : Int), (0 : Int)), (2048, 8, 0), (7, 8, 1), (7, 2048, 0)],
        (Instr.bitrev p.1 p.2.1 p.2.2).wellFormed = true) := by decide

/-- The fault of each instruction on its last listed address. -/
theorem witness_AddressFaultsOnlyOnListedAddresses :
    (machine [] []).status = .running ∧
      nextOf (exec (.const 0 2048) (machine [] [])) = some (stopped [] [] 2048) ∧
      nextOf (exec (.load 0 2048) (machine [] [])) = some (stopped [] [] 2048) ∧
      nextOf (exec (.store 1 0) (machine [(0, 2), (2, 2048)] [])) = some (stopped [(0, 2), (2, 2048)] [] 2048) ∧
      nextOf (exec (.bitrev 0 2048 127) (machine [] [])) = some (stopped [] [] 2048) := by decide

theorem witness_BitrevTwiceInPlaceRestoresMemory :
    Memory.wf [(7, 9), (10, 3)] = true ∧ (Instr.bitrev 7 10 1).wellFormed = true ∧ (7 : Int) ≠ 10 ∧
      (10 : Int) = (Memory.read [(7, 9), (10, 3)] 7).toNat + 1 := by decide

/-- A next state of each instruction, STORE in both of its clauses. -/
theorem witness_ExecLeavesEveryOtherWord :
    (nextOf (exec (.const 1 2) (machine [] []))).isSome = true ∧
      (nextOf (exec (.load 1 2) (machine [] []))).isSome = true ∧
      (nextOf (exec (.bitrev 1 2 3) (machine [] []))).isSome = true ∧
      (nextOf (exec (.store 1 2) (machine [] []))).isSome = true ∧ indirect [] 2 = .ok 0 ∧
      (nextOf (exec (.store 1 2048) (machine [] []))).isSome = true ∧
      indirect [] 2048 = .error (.addressFault 2048) := by decide

/-- Two states that differ in PROG and `off`: a LOAD that completes in both, and one that faults in both. -/
theorem witness_ExecReadsOnlyMemoryAndOperands :
    (machine [(1, 2)] []).mem = (advanced [(1, 2)] [5]).mem ∧
      (nextOf (exec (.load 1 2) (machine [(1, 2)] []))).map (fun t => t.off) = some 11 ∧
      (nextOf (exec (.load 1 2) (advanced [(1, 2)] [5]))).map (fun t => t.off) = some 22 ∧
      (nextOf (exec (.load 1 2048) (machine [(1, 2)] []))).map (fun t => t.status) =
        some (.faulted (.addressFault 2048) 0) ∧
      (nextOf (exec (.load 1 2048) (advanced [(1, 2)] [5]))).map (fun t => t.status) =
        some (.faulted (.addressFault 2048) 11) := by decide

/-- A record at the very end of PROG. It serves every statement about a step that runs a record. -/
theorem witness_StepRunsDecodedInstruction :
    (machine [] (encode (.const 1 2))).status = .running ∧ 0 + 11 ≤ (machine [] (encode (.const 1 2))).prog.length ∧
      decode (((machine [] (encode (.const 1 2))).prog.drop 0).take 11) = .ok (.const 1 2) ∧
      nextOf (step (machine [] (encode (.const 1 2)))) = some (advanced [(2, 1)] (encode (.const 1 2))) := by decide

theorem witness_StepHaltsWithoutWholeRecord :
    (machine [] (List.replicate 10 0)).status = .running ∧
      (machine [] (List.replicate 10 0)).prog.length < (machine [] (List.replicate 10 0)).off + 11 := by decide

theorem witness_StepFaultsOnUnknownOpcode :
    ∀ tag ∈ [0, 2, 5, 8, 10, 11, 13, 15], tag ≠ 3 ∧ tag ≠ 4 ∧ tag ≠ 9 ∧ tag ≠ 12 ∧
      slice (leValue (((machine [] (BitVec.ofNat 8 tag :: List.replicate 10 0)).prog.drop 0).take 11)) 3 0 = tag ∧
      (machine [] (BitVec.ofNat 8 tag :: List.replicate 10 0)).prog.length = 11 := by decide

/-- A step that ends in an error. -/
theorem witness_ErrorStepChangesOnlyStatus :
    nextOf (step (machine [] (encode (.const 1 2048)))) = some (stopped [] (encode (.const 1 2048)) 2048) := by decide

/-- A step that stays Running, and one that ends the run. -/
theorem witness_OffsetAdvancesByOneRecordOrStays :
    (nextOf (step (machine [] (encode (.const 1 2))))).map (fun t => t.status) = some .running ∧
      (nextOf (step (machine [] []))).map (fun t => t.status) = some .halted := by decide

/-- Two programs that agree on the record at `off` alone. -/
theorem witness_StepReadsOnlyTheRecordAtOffset :
    0 + 11 ≤ (encode (.const 1 2) ++ [1]).length ∧ 0 + 11 ≤ (encode (.const 1 2) ++ [2, 3]).length ∧
      (∀ k, k < 11 → (encode (.const 1 2) ++ [1])[k]? = (encode (.const 1 2) ++ [2, 3])[k]?) ∧
      nextOf (step (machine [] (encode (.const 1 2) ++ [1]))) = some (advanced [(2, 1)] (encode (.const 1 2) ++ [1])) ∧
      nextOf (step (machine [] (encode (.const 1 2) ++ [2, 3]))) =
        some (advanced [(2, 1)] (encode (.const 1 2) ++ [2, 3])) := by decide

theorem witness_PlacedWordIsTheNextInstruction : decodeTableWord 88 0xE480035E4 = some (.const 862 457) := by decide

/-- A legal state from which a step is taken, at an offset other than 0. -/
theorem witness_StepKeepsInvariant :
    (advanced [(2, 1)] (List.replicate 11 0 ++ encode (.const 1 3))).Inv = true ∧
      (nextOf (step (advanced [(2, 1)] (List.replicate 11 0 ++ encode (.const 1 3))))).isSome = true := by decide

/-- Two whole records and three bytes left. -/
theorem witness_RunHaltsOrFaultsAtFirstBadRecord :
    (machine [] (List.replicate 25 4)).status = .running ∧
      (machine [] (List.replicate 25 4)).off ≤ (machine [] (List.replicate 25 4)).prog.length ∧
      2 = ((machine [] (List.replicate 25 4)).prog.length - (machine [] (List.replicate 25 4)).off) / 11 := by decide

/-- The empty range, the last word, and ranges just outside. -/
theorem witness_Dumps :
    dump (machine [(2047, 5)] []) 2048 2048 = .ok [] ∧ dump (machine [(2047, 5)] []) 2047 2048 = .ok [5] ∧
      dump (machine [(2047, 5)] []) 2047 2049 = .error (.badRange 2047 2049) ∧
      dump (machine [] []) 3 2 = .error (.badRange 3 2) := by decide

theorem witness_AbortIsTerminalAndKeepsMemory : (machine [(1, 2)] []).status = .running := by decide

/-- An error of each raiser. -/
theorem witness_EachErrorFromItsOwnRaiser :
    decode [] = .error (.decodeLength 0) ∧ encodeRaw 5 0 0 0 = .error (.encodeContract 5) ∧
      dump (machine [] []) 0 2049 = .error (.badRange 0 2049) ∧
      nextOf (step (machine [] (5 :: List.replicate 10 0))) =
        some { machine [] (5 :: List.replicate 10 0) with status := .faulted (.unknownOpcode 5) 0 } := by decide

end Sys2Proof.Tests
end

section
/-! What one step can do, and what every step keeps (10_state.md): the family's shared lemmas and its four statements.
An instruction ends by its one write or by its first error, both read off `memoryResult`. -/

namespace Sys2Proof.Machine

/-! ### An instruction as one read-and-write of memory -/

/-- What an instruction makes of the memory: the memory after its one write, or its first error. -/
def memoryResult : Instr → Memory → Except BlockError Memory
  | .const b c, m => memWrite m c b
  | .load b c, m => do
    let v ← indirect m b
    memWrite m c (addressOf v)
  | .store b c, m => do
    let v ← indirect m b
    let dest ← indirect m c
    memWrite m (addressOf dest) (addressOf v)
  | .bitrev b c d, m => do
    let v ← indexed m b d
    memWrite m c (addressOf (rev64 v))

/-- The address of an instruction's one write, or the error of the operand form that gives it. -/
def destination : Instr → Memory → Except BlockError Int
  | .const _ c, _ => .ok c
  | .load _ c, _ => .ok c
  | .store _ c, m => (indirect m c).map addressOf
  | .bitrev _ c _, _ => .ok c

theorem exec_eq_conclude (i : Instr) (s : State) : exec i s = conclude s (memoryResult i s.mem) := by
  cases i <;> rfl

/-- What one instruction can do to the state: complete with its memory, or take its error. -/
theorem exec_eq_next (i : Instr) (s t : State) :
    exec i s = .next t ↔
      (∃ m, memoryResult i s.mem = .ok m ∧ t = s.retire m) ∨
        ∃ e, memoryResult i s.mem = .error e ∧ t = s.takeError e := by
  rw [exec_eq_conclude, conclude_eq_next]

/-- An instruction that completes has written one word, at its destination. -/
theorem memWrite_of_memoryResult_ok (i : Instr) (m m' : Memory) (h : memoryResult i m = .ok m') :
    ∃ a v, destination i m = .ok a ∧ memWrite m a v = .ok m' := by
  cases i with
  | const b c => exact ⟨c, b, rfl, h⟩
  | load b c =>
    obtain ⟨v, -, hw⟩ := (bind_eq_ok _ _ _).mp h
    exact ⟨c, _, rfl, hw⟩
  | store b c =>
    obtain ⟨v, -, h⟩ := (bind_eq_ok _ _ _).mp h
    obtain ⟨dest, hdest, hw⟩ := (bind_eq_ok _ _ _).mp h
    exact ⟨addressOf dest, _, by rw [destination, hdest]; rfl, hw⟩
  | bitrev b c d =>
    obtain ⟨v, -, hw⟩ := (bind_eq_ok _ _ _).mp h
    exact ⟨c, _, rfl, hw⟩

/-! ### The frame of an instruction -/

theorem read_memWrite_other (m m' : Memory) (a v : Int) (k : Nat) (h : memWrite m a v = .ok m') (hk : (k : Int) ≠ a) :
    Memory.read m' k = Memory.read m k := by
  obtain ⟨⟨h0, -⟩, rfl⟩ := (memWrite_eq_ok _ _ _ _).mp h
  exact Memory.read_write_other _ _ _ _ (by omega)

theorem exec_keeps_prog (i : Instr) (s t : State) (h : exec i s = .next t) : t.prog = s.prog := by
  obtain ⟨m, -, rfl⟩ | ⟨e, -, rfl⟩ := (exec_eq_next i s t).mp h <;> rfl

/-- Every word but the one at the destination reads as before. -/
theorem exec_keeps_other_words (i : Instr) (s t : State) (a : Int) (h : exec i s = .next t)
    (ha : destination i s.mem = .ok a) (k : Nat) (hk : (k : Int) ≠ a) :
    Memory.read t.mem k = Memory.read s.mem k := by
  obtain ⟨m, hm, rfl⟩ | ⟨e, -, rfl⟩ := (exec_eq_next i s t).mp h
  · obtain ⟨a', v, ha', hw⟩ := memWrite_of_memoryResult_ok i s.mem m hm
    obtain rfl : a = a' := Except.ok.inj (ha.symm.trans ha')
    exact read_memWrite_other _ _ _ _ k hw hk
  · rfl

/-- Where the destination's operand form raises, nothing is written. -/
theorem exec_keeps_mem_of_destination_error (i : Instr) (s t : State) (e : BlockError) (h : exec i s = .next t)
    (he : destination i s.mem = .error e) : t.mem = s.mem := by
  obtain ⟨m, hm, rfl⟩ | ⟨e', -, rfl⟩ := (exec_eq_next i s t).mp h
  · obtain ⟨a, v, ha, -⟩ := memWrite_of_memoryResult_ok i s.mem m hm
    exact nomatch he.symm.trans ha
  · rfl

/-- Settles O29: each instruction's case is the frame of its own destination. -/
theorem execLeavesEveryOtherWord : Obligations.ExecLeavesEveryOtherWord := by
  intro s t
  refine ⟨fun b c h => ?const, fun b c h => ?load, fun b c d h => ?bitrev, fun b c h => ?store⟩
  case const => exact ⟨exec_keeps_prog _ s t h, exec_keeps_other_words _ s t c h rfl⟩
  case load => exact ⟨exec_keeps_prog _ s t h, exec_keeps_other_words _ s t c h rfl⟩
  case bitrev => exact ⟨exec_keeps_prog _ s t h, exec_keeps_other_words _ s t c h rfl⟩
  case store =>
    refine ⟨exec_keeps_prog _ s t h, fun dest hdest k hk => ?_, fun e he => ?_⟩
    · refine exec_keeps_other_words _ s t (addressOf dest) h ?_ k (mt Int.ofNat.inj hk)
      rw [destination, hdest]; rfl
    · refine exec_keeps_mem_of_destination_error _ s t e h ?_
      rw [destination, he]; rfl

/-! ### The three ways a step ends -/

/-- A step halts, completes an instruction, or takes an error of DEC or of an instruction; and only while Running. -/
theorem step_cases (s t : State) (h : step s = .next t) :
    s.status = .running ∧
      ((s.prog.length < s.off + 11 ∧ t = s.halt) ∨
        s.off + 11 ≤ s.prog.length ∧ ∃ rec : List Byte, rec.length = 11 ∧
          ((∃ i m, decode rec = .ok i ∧ memoryResult i s.mem = .ok m ∧ t = s.retire m) ∨
            ∃ e, (decode rec = .error e ∨ ∃ i, decode rec = .ok i ∧ memoryResult i s.mem = .error e) ∧
              t = s.takeError e)) := by
  obtain ⟨hrun, ⟨hfetch, rfl⟩ | ⟨rec, hfetch, hrec⟩⟩ := (step_eq_next s t).mp h
  · have := (fetch_eq_none s).mp hfetch
    exact ⟨hrun, .inl ⟨by omega, rfl⟩⟩
  · obtain ⟨hlen, hrec_eq⟩ := (fetch_eq_some s rec).mp hfetch
    refine ⟨hrun, .inr ⟨by omega, rec, by simp [hrec_eq, hlen], ?_⟩⟩
    obtain ⟨e, hdec, rfl⟩ | ⟨i, hdec, hexec⟩ := hrec
    · exact .inr ⟨e, .inl hdec, rfl⟩
    · obtain ⟨m, hm, rfl⟩ | ⟨e, he, rfl⟩ := (exec_eq_next i s t).mp hexec
      · exact .inl ⟨i, m, hdec, hm, rfl⟩
      · exact .inr ⟨e, .inr ⟨i, hdec, he⟩, rfl⟩

/-- Settles O38, over the three ways a step ends. -/
theorem offsetAdvancesByOneRecordOrStays : Obligations.OffsetAdvancesByOneRecordOrStays := by
  intro s t h
  obtain ⟨hrun, ⟨-, rfl⟩ | ⟨-, rec, -, ⟨i, m, -, -, rfl⟩ | ⟨e, -, rfl⟩⟩⟩ := step_cases s t h
  · exact ⟨nofun, fun _ => ⟨rfl, rfl⟩⟩
  · exact ⟨fun _ => rfl, fun hover => absurd hrun hover⟩
  · exact ⟨nofun, fun _ => ⟨rfl, rfl⟩⟩

/-- Settles O39, over the three ways a step ends. -/
theorem stepNeverChangesProgram : Obligations.StepNeverChangesProgram := by
  intro s t h
  obtain ⟨-, ⟨-, rfl⟩ | ⟨-, rec, -, ⟨i, m, -, -, rfl⟩ | ⟨e, -, rfl⟩⟩⟩ := step_cases s t h
  · exact halt_prog s
  · exact retire_prog s m
  · exact takeError_prog s e

/-! ### What DEC can answer of 11 bytes -/

theorem ofTag_eq_none (t : Nat) : Opcode.ofTag t = none ↔ t ≠ 3 ∧ t ≠ 4 ∧ t ≠ 9 ∧ t ≠ 12 := by
  unfold Opcode.ofTag
  split <;> simp_all

theorem decode_of_length (rec : List Byte) (h : rec.length = 11) : decode rec = decodeRecord (leValue rec) :=
  if_pos h

theorem decodeRecord_eq_error (r : Nat) (e : BlockError) :
    decodeRecord r = .error e ↔ Opcode.ofTag (slice r 3 0) = none ∧ e = .unknownOpcode (slice r 3 0) := by
  cases hop : Opcode.ofTag (slice r 3 0) with
  | none => simp [decodeRecord, hop, eq_comm]
  | some o => cases o <;> simp [decodeRecord, hop]

theorem slice_fitsField (w v hi lo : Nat) (hw : hi - lo + 1 = w) : fitsField w (slice v hi lo) := by
  subst hw
  exact ⟨Int.natCast_nonneg _, by exact_mod_cast slice_lt v hi lo⟩

/-- DEC slices every operand at its field's own width, so what it gives is well formed. -/
theorem decodeRecord_wellFormed (r : Nat) (i : Instr) (h : decodeRecord r = .ok i) : i.wellFormed = true := by
  have hB : fitsField 26 (slice r 29 4) := slice_fitsField 26 r 29 4 rfl
  have hC : fitsField 26 (slice r 55 30) := slice_fitsField 26 r 55 30 rfl
  unfold decodeRecord at h
  split at h
  · exact nomatch h
  · obtain rfl := Except.ok.inj h
    exact (wellFormed_const _ _).mpr ⟨slice_fitsField 23 r 26 4 rfl, slice_fitsField 26 r 52 27 rfl⟩
  · obtain rfl := Except.ok.inj h
    exact (wellFormed_load _ _).mpr ⟨hB, hC⟩
  · obtain rfl := Except.ok.inj h
    exact (wellFormed_store _ _).mpr ⟨hB, hC⟩
  · obtain rfl := Except.ok.inj h
    exact (wellFormed_bitrev _ _ _).mpr ⟨hB, hC, slice_fitsField 7 r 62 56 rfl⟩

/-- DEC's error on a whole record is a cause the fault record can hold: an illegal tag of four bits. -/
theorem vmCause_of_decode_error (rec : List Byte) (e : BlockError) (hlen : rec.length = 11)
    (h : decode rec = .error e) : vmCause e = true := by
  rw [decode_of_length rec hlen] at h
  obtain ⟨htag, rfl⟩ := (decodeRecord_eq_error _ e).mp h
  exact (vmCause_unknownOpcode _).mpr ⟨slice_lt _ 3 0, (ofTag_eq_none _).mp htag⟩

/-! ### Which addresses a decoded instruction can reach -/

/-- An address a decoded instruction can ask for: no larger than BITREV's largest sum (R99). -/
def askedAddress (a : Int) : Prop := 0 ≤ a ∧ a ≤ 2 ^ 64 + 126

theorem askedAddress_addressOf (w : Word) : askedAddress (addressOf w) := by
  have := addressOf_lt w
  exact ⟨addressOf_nonneg w, by omega⟩

theorem askedAddress_effectiveAddress (w : Word) (d : Int) (hd : 0 ≤ d ∧ d < 2 ^ 7) :
    askedAddress (effectiveAddress w d) := by
  have h0 := addressOf_nonneg w
  have h1 := addressOf_lt w
  unfold askedAddress effectiveAddress
  omega

theorem askedAddress_field (x : Int) (h : 0 ≤ x ∧ x < 2 ^ 26) : askedAddress x := by
  unfold askedAddress
  omega

theorem vmCause_of_askedAddress (a : Int) (h : askedAddress a) (hout : ¬ inMemory a) :
    vmCause (.addressFault a) = true := by
  obtain ⟨h0, hmax⟩ := h
  have hmem : (2048 : Int) ≤ a := not_lt.mp fun hlt => hout ⟨h0, hlt⟩
  exact (vmCause_addressFault a).mpr ⟨hmem, hmax⟩

theorem vmCause_of_memRead_error (m : Memory) (a : Int) (e : BlockError) (ha : askedAddress a)
    (h : memRead m a = .error e) : vmCause e = true := by
  obtain ⟨hout, rfl⟩ := (memRead_eq_error m a e).mp h
  exact vmCause_of_askedAddress a ha hout

theorem vmCause_of_memWrite_error (m : Memory) (a v : Int) (e : BlockError) (ha : askedAddress a)
    (h : memWrite m a v = .error e) : vmCause e = true := by
  obtain ⟨hout, rfl⟩ := (memWrite_eq_error m a v e).mp h
  exact vmCause_of_askedAddress a ha hout

theorem vmCause_of_indirect_error (m : Memory) (b : Int) (e : BlockError) (hb : askedAddress b)
    (h : indirect m b = .error e) : vmCause e = true := by
  obtain h | ⟨p, -, h⟩ := (indirect_eq_error m b e).mp h
  · exact vmCause_of_memRead_error m b e hb h
  · exact vmCause_of_memRead_error m _ e (askedAddress_addressOf p) h

theorem vmCause_of_indexed_error (m : Memory) (b d : Int) (e : BlockError) (hb : askedAddress b)
    (hd : 0 ≤ d ∧ d < 2 ^ 7) (h : indexed m b d = .error e) : vmCause e = true := by
  obtain h | ⟨p, -, h⟩ := (indexed_eq_error m b d e).mp h
  · exact vmCause_of_memRead_error m b e hb h
  · exact vmCause_of_memRead_error m _ e (askedAddress_effectiveAddress p d hd) h

/-- The first error of a well-formed instruction is a cause the fault record can hold. -/
theorem vmCause_of_memoryResult_error (i : Instr) (m : Memory) (e : BlockError) (hi : i.wellFormed = true)
    (h : memoryResult i m = .error e) : vmCause e = true := by
  cases i with
  | const b c =>
    obtain ⟨-, hc⟩ := (wellFormed_const b c).mp hi
    exact vmCause_of_memWrite_error m c _ e (askedAddress_field c hc) h
  | load b c =>
    obtain ⟨hb, hc⟩ := (wellFormed_load b c).mp hi
    obtain h | ⟨v, -, h⟩ := (bind_eq_error _ _ _).mp h
    · exact vmCause_of_indirect_error m b e (askedAddress_field b hb) h
    · exact vmCause_of_memWrite_error m c _ e (askedAddress_field c hc) h
  | store b c =>
    obtain ⟨hb, hc⟩ := (wellFormed_store b c).mp hi
    obtain h | ⟨v, -, h⟩ := (bind_eq_error _ _ _).mp h
    · exact vmCause_of_indirect_error m b e (askedAddress_field b hb) h
    · obtain h | ⟨dest, -, h⟩ := (bind_eq_error _ _ _).mp h
      · exact vmCause_of_indirect_error m c e (askedAddress_field c hc) h
      · exact vmCause_of_memWrite_error m _ _ e (askedAddress_addressOf dest) h
  | bitrev b c d =>
    obtain ⟨hb, hc, hd⟩ := (wellFormed_bitrev b c d).mp hi
    obtain h | ⟨v, -, h⟩ := (bind_eq_error _ _ _).mp h
    · exact vmCause_of_indexed_error m b d e (askedAddress_field b hb) hd h
    · exact vmCause_of_memWrite_error m c _ e (askedAddress_field c hc) h

/-! ### Every step keeps the legal states -/

theorem memoryResult_wf (i : Instr) (m m' : Memory) (hm : Memory.wf m = true) (h : memoryResult i m = .ok m') :
    Memory.wf m' = true := by
  obtain ⟨a, v, -, hw⟩ := memWrite_of_memoryResult_ok i m m' h
  obtain ⟨⟨h0, hlt⟩, rfl⟩ := (memWrite_eq_ok m a v m').mp hw
  exact Memory.write_wf m a.toNat _ hm ((Int.toNat_lt h0).mpr hlt)

theorem halt_inv (s : State) (hs : s.Inv = true) (hend : s.prog.length < s.off + 11) : s.halt.Inv = true := by
  obtain ⟨hmem, hoff, hle, -⟩ := (inv_iff s).mp hs
  exact (inv_iff _).mpr ⟨hmem, hoff, hle, (statusLegal_halted _ (halt_status s)).mpr hend⟩

theorem takeError_inv (s : State) (e : BlockError) (hs : s.Inv = true) (hrec : s.off + 11 ≤ s.prog.length)
    (he : vmCause e = true) : (s.takeError e).Inv = true := by
  obtain ⟨hmem, hoff, hle, -⟩ := (inv_iff s).mp hs
  exact (inv_iff _).mpr
    ⟨hmem, hoff, hle, (statusLegal_faulted _ e s.off (takeError_status s e)).mpr ⟨he, rfl, hrec⟩⟩

theorem retire_inv (s : State) (m : Memory) (hs : s.Inv = true) (hrun : s.status = .running)
    (hrec : s.off + 11 ≤ s.prog.length) (hm : Memory.wf m = true) : (s.retire m).Inv = true := by
  obtain ⟨-, hoff, -, -⟩ := (inv_iff s).mp hs
  refine (inv_iff _).mpr ⟨hm, ?_, hrec, statusLegal_running _ hrun⟩
  rw [retire_off]
  omega

/-- Settles O44: each of the three ways a step ends keeps the invariant, the fault because every error a step takes is
a cause the fault record can hold. -/
theorem stepKeepsInvariant : Obligations.StepKeepsInvariant := by
  intro s t hs h
  obtain ⟨hmem, -, -, -⟩ := (inv_iff s).mp hs
  obtain ⟨hrun, ⟨hend, rfl⟩ | ⟨hrec, rec, hlen, ⟨i, m, -, hm, rfl⟩ | ⟨e, he, rfl⟩⟩⟩ := step_cases s t h
  · exact halt_inv s hs hend
  · exact retire_inv s m hs hrun hrec (memoryResult_wf i s.mem m hmem hm)
  · refine takeError_inv s e hs hrec ?_
    obtain hdec | ⟨i, hdec, herr⟩ := he
    · exact vmCause_of_decode_error rec e hlen hdec
    · rw [decode_of_length rec hlen] at hdec
      exact vmCause_of_memoryResult_error i s.mem e (decodeRecord_wellFormed _ i hdec) herr

end Sys2Proof.Machine
end

section
/-! The data memory behind the checked accesses (20_memory.md): what MemRead answers after MemWrite. -/

namespace Sys2Proof.Machine

/-- `mask_64` as a number: the residue of the integer modulo 2^64 (R12). -/
theorem toNat_ofInt_word (v : Int) : ((BitVec.ofInt 64 v).toNat : Int) = v % 2 ^ 64 := by
  rw [BitVec.toNat_ofInt]
  exact Int.toNat_of_nonneg (Int.emod_nonneg v (by decide))

/-- Only a canonical memory promises this: a write of zero deletes one entry, and a second entry for the address would
show through. -/
theorem memRead_memWrite_same (m m' : Memory) (a v : Int) (hm : Memory.wf m = true) (h : memWrite m a v = .ok m') :
    memRead m' a = .ok (BitVec.ofInt 64 v) := by
  obtain ⟨ha, rfl⟩ := (memWrite_eq_ok m a v m').mp h
  exact (memRead_eq_ok _ a _).mpr ⟨ha, Memory.read_write_same m a.toNat _ hm⟩

/-- MemRead answers alike on two memories that hold the same word at the address, in range or not. -/
theorem memRead_congr (m m' : Memory) (k : Int) (h : inMemory k → Memory.read m' k.toNat = Memory.read m k.toNat) :
    memRead m' k = memRead m k := by
  by_cases hk : inMemory k
  · calc memRead m' k = .ok (Memory.read m k.toNat) := (memRead_eq_ok m' k _).mpr ⟨hk, h hk⟩
      _ = memRead m k := ((memRead_eq_ok m k _).mpr ⟨hk, rfl⟩).symm
  · calc memRead m' k = .error (.addressFault k) := (memRead_eq_error m' k _).mpr ⟨hk, rfl⟩
      _ = memRead m k := ((memRead_eq_error m k _).mpr ⟨hk, rfl⟩).symm

theorem memRead_memWrite_other (m m' : Memory) (a v k : Int) (h : memWrite m a v = .ok m') (hk : k ≠ a) :
    memRead m' k = memRead m k :=
  memRead_congr m m' k fun hin =>
    read_memWrite_other m m' a v k.toNat h (by rwa [Int.toNat_of_nonneg hin.1])

/-- Settles O19: the written word by its read-back, every other address by the frame of MemWrite. -/
theorem writeIsReadBackMaskedAndAlone : Obligations.WriteIsReadBackMaskedAndAlone := by
  intro m m' a v hm h
  exact ⟨⟨BitVec.ofInt 64 v, memRead_memWrite_same m m' a v hm h, toNat_ofInt_word v⟩,
    fun k hk => memRead_memWrite_other m m' a v k h hk⟩

end Sys2Proof.Machine
end

section
/-! Records, the instructions in them and the text they are written in (30_encoding.md): ENC and DEC on the number of a
record, what an instruction depends on, and the assembler line by line. -/

namespace Sys2Proof

open Machine

/-! ## ENC and DEC

ENC places the tag and the masked operands side by side, DEC slices them out again (R48 to R65). CONST's format C and the
format M of the other three are each one sum of disjoint fields, so what a slice reads is proved once per format. -/

/-! ### Fields side by side in one number -/

/-- Above a number of `k` bits, OR places a field where addition would. -/
theorem or_shiftLeft_eq_add (a x k : Nat) (h : a < 2 ^ k) : a ||| (x <<< k) = a + 2 ^ k * x := by
  rw [Nat.or_comm, ← Nat.shiftLeft_add_eq_or_of_lt h x, Nat.shiftLeft_eq, Nat.mul_comm, Nat.add_comm]

/-- A slice reads the field at its place, whatever stands below it and above it. -/
theorem slice_eq_field (v a x y hi lo : Nat) (ha : a < 2 ^ lo) (hx : x < 2 ^ (hi - lo + 1))
    (hv : v = a + 2 ^ lo * (x + 2 ^ (hi - lo + 1) * y)) : slice v hi lo = x := by
  rw [hv, slice, Nat.shiftRight_eq_div_pow, Nat.add_mul_div_left _ _ (by positivity), Nat.div_eq_of_lt ha, Nat.zero_add,
    Nat.add_mul_mod_self_left, Nat.mod_eq_of_lt hx]

/-- A masked operand is the floor residue of the integer (R12). -/
theorem natCast_maskField (w : Nat) (x : Int) : (maskField w x : Int) = x % 2 ^ w :=
  Int.toNat_of_nonneg (Int.emod_nonneg x (by positivity))

/-- The number of a format C record (R50). -/
def constNumber (b c : Nat) : Nat := 4 + 2 ^ 4 * b + 2 ^ 27 * c

/-- The number of a format M record (R51). -/
def memNumber (tag b c d : Nat) : Nat := tag + 2 ^ 4 * b + 2 ^ 30 * c + 2 ^ 56 * d

theorem slice_constNumber (b c : Nat) (hb : b < 2 ^ 23) (hc : c < 2 ^ 26) :
    slice (constNumber b c) 26 4 = b ∧ slice (constNumber b c) 52 27 = c := by
  unfold constNumber
  exact ⟨slice_eq_field _ 4 b c 26 4 (by omega) hb (by omega),
    slice_eq_field _ (4 + 2 ^ 4 * b) c 0 52 27 (by omega) hc (by omega)⟩

theorem slice_memNumber (tag b c d : Nat) (ht : tag < 2 ^ 4) (hb : b < 2 ^ 26) (hc : c < 2 ^ 26) (hd : d < 2 ^ 7) :
    slice (memNumber tag b c d) 29 4 = b ∧ slice (memNumber tag b c d) 55 30 = c ∧
      slice (memNumber tag b c d) 62 56 = d := by
  unfold memNumber
  exact ⟨slice_eq_field _ tag b (c + 2 ^ 26 * d) 29 4 ht hb (by omega),
    slice_eq_field _ (tag + 2 ^ 4 * b) c d 55 30 (by omega) hc (by omega),
    slice_eq_field _ (tag + 2 ^ 4 * b + 2 ^ 30 * c) d 0 62 56 (by omega) hd (by omega)⟩

/-! ### The number ENC builds -/

theorem encodeRecord_const (b c : Int) :
    encodeRecord (.const b c) = constNumber (maskField 23 b) (maskField 26 c) := by
  have hb := maskField_lt 23 b
  have hor := or_shiftLeft_eq_add 4 (maskField 23 b) 4 (by omega)
  rw [encodeRecord, Opcode.tag, hor, or_shiftLeft_eq_add _ _ 27 (by omega), constNumber]

/-- The OR of format M's four fields is their sum, for every tag and every pair of masked addresses. -/
theorem or_fields_eq_memNumber (tag d : Nat) (b c : Int) (ht : tag < 2 ^ 4) :
    tag ||| (maskField 26 b <<< 4) ||| (maskField 26 c <<< 30) ||| (d <<< 56) =
      memNumber tag (maskField 26 b) (maskField 26 c) d := by
  have hb := maskField_lt 26 b
  have hc := maskField_lt 26 c
  rw [or_shiftLeft_eq_add tag _ 4 ht, or_shiftLeft_eq_add _ _ 30 (by omega), or_shiftLeft_eq_add _ _ 56 (by omega),
    memNumber]

theorem encodeRecord_load (b c : Int) :
    encodeRecord (.load b c) = memNumber 12 (maskField 26 b) (maskField 26 c) 0 :=
  or_fields_eq_memNumber 12 0 b c (by decide)

theorem encodeRecord_store (b c : Int) :
    encodeRecord (.store b c) = memNumber 3 (maskField 26 b) (maskField 26 c) 0 :=
  or_fields_eq_memNumber 3 0 b c (by decide)

theorem encodeRecord_bitrev (b c d : Int) :
    encodeRecord (.bitrev b c d) = memNumber 9 (maskField 26 b) (maskField 26 c) (maskField 7 d) :=
  or_fields_eq_memNumber 9 _ b c (by decide)

theorem memNumber_lt (tag b c d : Nat) (ht : tag < 2 ^ 4) (hb : b < 2 ^ 26) (hc : c < 2 ^ 26) (hd : d < 2 ^ 7) :
    memNumber tag b c d < 2 ^ 63 := by
  unfold memNumber
  omega

/-- No record needs more than the 63 bits of format M. -/
theorem encodeRecord_lt (i : Instr) : encodeRecord i < 2 ^ 63 := by
  cases i with
  | const b c =>
    have hb := maskField_lt 23 b
    have hc := maskField_lt 26 c
    rw [encodeRecord_const, constNumber]
    omega
  | load b c =>
    rw [encodeRecord_load]
    exact memNumber_lt _ _ _ _ (by decide) (maskField_lt 26 b) (maskField_lt 26 c) (by decide)
  | store b c =>
    rw [encodeRecord_store]
    exact memNumber_lt _ _ _ _ (by decide) (maskField_lt 26 b) (maskField_lt 26 c) (by decide)
  | bitrev b c d =>
    rw [encodeRecord_bitrev]
    exact memNumber_lt _ _ _ _ (by decide) (maskField_lt 26 b) (maskField_lt 26 c) (maskField_lt 7 d)

/-- The 11 bytes of a record hold its whole number. -/
theorem leValue_encode (i : Instr) : leValue (encode i) = encodeRecord i := by
  have hlt : encodeRecord i < 256 ^ 11 := (encodeRecord_lt i).trans (by decide)
  rw [encode, leValue_leBytes, Nat.mod_eq_of_lt hlt]

/-! ### DEC by the tag -/

theorem decodeRecord_of_tag_const (r : Nat) (h : slice r 3 0 = 4) :
    decodeRecord r = .ok (.const (slice r 26 4) (slice r 52 27)) := by
  simp [decodeRecord, h, Opcode.ofTag]

theorem decodeRecord_of_tag_load (r : Nat) (h : slice r 3 0 = 12) :
    decodeRecord r = .ok (.load (slice r 29 4) (slice r 55 30)) := by
  simp [decodeRecord, h, Opcode.ofTag]

theorem decodeRecord_of_tag_store (r : Nat) (h : slice r 3 0 = 3) :
    decodeRecord r = .ok (.store (slice r 29 4) (slice r 55 30)) := by
  simp [decodeRecord, h, Opcode.ofTag]

theorem decodeRecord_of_tag_bitrev (r : Nat) (h : slice r 3 0 = 9) :
    decodeRecord r = .ok (.bitrev (slice r 29 4) (slice r 55 30) (slice r 62 56)) := by
  simp [decodeRecord, h, Opcode.ofTag]

theorem decode_of_length_ne (bytes : List Byte) (h : bytes.length ≠ 11) :
    decode bytes = .error (.decodeLength bytes.length) :=
  if_neg h

/-! ### The round trip -/

/-- The instruction with each operand cut to its field (R57). -/
def Instr.masked : Instr → Instr
  | .const b c => .const (maskField 23 b) (maskField 26 c)
  | .load b c => .load (maskField 26 b) (maskField 26 c)
  | .store b c => .store (maskField 26 b) (maskField 26 c)
  | .bitrev b c d => .bitrev (maskField 26 b) (maskField 26 c) (maskField 7 d)

theorem masked_of_wellFormed (i : Instr) (h : i.wellFormed = true) : i.masked = i := by
  cases i with
  | const b c =>
    obtain ⟨hb, hc⟩ := (wellFormed_const b c).mp h
    rw [Instr.masked, maskField_of_fits 23 b hb, maskField_of_fits 26 c hc]
  | load b c =>
    obtain ⟨hb, hc⟩ := (wellFormed_load b c).mp h
    rw [Instr.masked, maskField_of_fits 26 b hb, maskField_of_fits 26 c hc]
  | store b c =>
    obtain ⟨hb, hc⟩ := (wellFormed_store b c).mp h
    rw [Instr.masked, maskField_of_fits 26 b hb, maskField_of_fits 26 c hc]
  | bitrev b c d =>
    obtain ⟨hb, hc, hd⟩ := (wellFormed_bitrev b c d).mp h
    rw [Instr.masked, maskField_of_fits 26 b hb, maskField_of_fits 26 c hc, maskField_of_fits 7 d hd]

/-- DEC finds the tag in the low bits and each masked operand at its place. -/
theorem decodeRecord_encodeRecord (i : Instr) : decodeRecord (encodeRecord i) = .ok i.masked := by
  cases i with
  | const b c =>
    obtain ⟨hb, hc⟩ := slice_constNumber _ _ (maskField_lt 23 b) (maskField_lt 26 c)
    rw [decodeRecord_of_tag_const _ (Laws.RecordTag.const b c), encodeRecord_const, hb, hc, Instr.masked]
  | load b c =>
    obtain ⟨hb, hc, -⟩ := slice_memNumber 12 _ _ 0 (by decide) (maskField_lt 26 b) (maskField_lt 26 c) (by decide)
    rw [decodeRecord_of_tag_load _ (Laws.RecordTag.load b c), encodeRecord_load, hb, hc, Instr.masked]
  | store b c =>
    obtain ⟨hb, hc, -⟩ := slice_memNumber 3 _ _ 0 (by decide) (maskField_lt 26 b) (maskField_lt 26 c) (by decide)
    rw [decodeRecord_of_tag_store _ (Laws.RecordTag.store b c), encodeRecord_store, hb, hc, Instr.masked]
  | bitrev b c d =>
    obtain ⟨hb, hc, hd⟩ :=
      slice_memNumber 9 _ _ _ (by decide) (maskField_lt 26 b) (maskField_lt 26 c) (maskField_lt 7 d)
    rw [decodeRecord_of_tag_bitrev _ (Laws.RecordTag.bitrev b c d), encodeRecord_bitrev, hb, hc, hd, Instr.masked]

theorem decode_encode (i : Instr) : decode (encode i) = .ok i.masked := by
  rw [decode_of_length _ (length_encode i), leValue_encode, decodeRecord_encodeRecord]

/-- Settles O12: DEC answers the masked instruction, and masking changes no operand that fits its field. -/
theorem decodeUndoesEncode : Obligations.DecodeUndoesEncode := by
  refine ⟨fun i h => ?_, fun b c => decode_encode (.const b c), fun b c => decode_encode (.load b c),
    fun b c => decode_encode (.store b c), fun b c d => decode_encode (.bitrev b c d)⟩
  rw [decode_encode, masked_of_wellFormed i h]

/-! ### What DEC answers -/

/-- Of the sixteen values of the tag field, the twelve the opcode map leaves out. -/
theorem ofTag_eq_none_iff_mem (t : Nat) (h : t < 16) :
    Opcode.ofTag t = none ↔ t ∈ [0, 1, 2, 5, 6, 7, 8, 10, 11, 13, 14, 15] := by
  rw [ofTag_eq_none]
  simp only [List.mem_cons, List.not_mem_nil, or_false]
  omega

/-- Settles O3: on any other length DEC looks no further, and on 11 bytes its one error is the opcode map's. -/
theorem decodeErrorsAreLengthThenTag : Obligations.DecodeErrorsAreLengthThenTag := by
  intro bytes e
  by_cases hlen : bytes.length = 11
  · rw [decode_of_length bytes hlen, decodeRecord_eq_error, ofTag_eq_none_iff_mem _ (slice_lt _ 3 0)]
    simp [hlen]
  · rw [decode_of_length_ne bytes hlen]
    simp [hlen, eq_comm]

/-- Settles O4: only 11 bytes give an instruction, and its operands are slices. -/
theorem decodedOperandsFitFields : Obligations.DecodedOperandsFitFields := by
  intro bytes i h
  by_cases hlen : bytes.length = 11
  · rw [decode_of_length bytes hlen] at h
    exact decodeRecord_wellFormed _ i h
  · rw [decode_of_length_ne bytes hlen] at h
    exact nomatch h

/-- Settles O2, one clause per tag. -/
theorem decodeReadsFieldsOfTag : Obligations.DecodeReadsFieldsOfTag := by
  intro bytes r
  refine ⟨decode_of_length_ne bytes, fun hlen => ?_⟩
  rw [decode_of_length bytes hlen]
  refine ⟨decodeRecord_of_tag_const r, decodeRecord_of_tag_load r, decodeRecord_of_tag_store r,
    decodeRecord_of_tag_bitrev r, fun ⟨h4, h12, h3, h9⟩ => ?_⟩
  exact (decodeRecord_eq_error r _).mpr ⟨(ofTag_eq_none _).mpr ⟨h3, h4, h9, h12⟩, rfl⟩

/-- Settles O14: the four records, byte by byte. -/
theorem sourceRecordsDecode : Obligations.SourceRecordsDecode := by
  refine ⟨?S6, ?S7, ?S8, ?S9⟩ <;> decide

/-! ### What ENC emits -/

/-- Settles O6: the number of a record is its format's sum, of operands taken modulo their widths. -/
theorem encodePlacesMaskedFields : Obligations.EncodePlacesMaskedFields := by
  intro b c d
  refine ⟨?const, ?load, ?store, ?bitrev, length_encode _, length_encode _, length_encode _, length_encode _⟩
  case const => simp [leValue_encode, encodeRecord_const, constNumber, natCast_maskField]
  case load => simp [leValue_encode, encodeRecord_load, memNumber, natCast_maskField]
  case store => simp [leValue_encode, encodeRecord_store, memNumber, natCast_maskField]
  case bitrev => simp [leValue_encode, encodeRecord_bitrev, memNumber, natCast_maskField]

/-- Settles O10, the length by induction on the Program. -/
theorem programEncodingConcatenatesRecords : Obligations.ProgramEncodingConcatenatesRecords := by
  intro p
  refine ⟨List.flatMap_def, ?_⟩
  induction p with
  | nil => rfl
  | cons i p ih =>
    have happend : encodeProgram (i :: p) = encode i ++ encodeProgram p := List.flatMap_cons
    rw [happend, List.length_append, length_encode, ih, List.length_cons]
    omega

end Sys2Proof

namespace Sys2Proof.Machine

/-! ## What an instruction depends on (R46) -/

/-- Settles O31: `memoryResult` sees the memory alone, and its answer is all an instruction puts into a state. -/
theorem execReadsOnlyMemoryAndOperands : Obligations.ExecReadsOnlyMemoryAndOperands := by
  intro i s s' hmem
  have hexec' : exec i s' = conclude s' (memoryResult i s.mem) := by rw [exec_eq_conclude, hmem]
  rw [exec_eq_conclude i s, hexec']
  cases memoryResult i s.mem with
  | ok m => exact .inl ⟨m, rfl, rfl⟩
  | error e => exact .inr ⟨e, rfl, rfl⟩

/-! ## The assembler (R69 to R74) -/

/-! ### One line -/

theorem cleanLine_append_comment (t u : List Char) : cleanLine (t ++ ';' :: u) = cleanLine t := by
  have hcut : (t ++ ';' :: u).takeWhile (· ≠ ';') = t.takeWhile (· ≠ ';') := by
    induction t with
    | nil => simp
    | cons c t ih =>
      rw [List.cons_append, List.takeWhile_cons, List.takeWhile_cons, ih]
  rw [cleanLine, cleanLine, hcut]

/-- The assembler reads a line only after its comment and outer blanks are cut off (R69). -/
theorem assembleLine_congr (n : Nat) (t t' : List Char) (h : cleanLine t = cleanLine t') :
    assembleLine n t = assembleLine n t' := by
  rw [assembleLine, assembleLine, h]

/-- Settles O15: the comment is gone before the assembler reads the line. -/
theorem commentsDoNotChangeALine : Obligations.CommentsDoNotChangeALine :=
  fun n t u => assembleLine_congr n _ _ (cleanLine_append_comment t u)

theorem assembleLine_of_blank (n : Nat) (t : List Char) (h : cleanLine t = []) : assembleLine n t = .ok none :=
  if_pos h

/-- A line with text on it gives an instruction or an error, never nothing. -/
theorem assembleLine_ne_ok_none (n : Nat) (t : List Char) (h : cleanLine t ≠ []) : assembleLine n t ≠ .ok none := by
  unfold assembleLine
  simp only [h, if_false]
  split
  · exact nofun
  · split
    · exact nofun
    · next op _ =>
      cases argsOf n ((cleanLine t).dropWhile Char.isAlpha) with
      | error e => exact nofun
      | ok args =>
        cases hbuild : buildInstr n op args with
        | error e => simp [bind, Except.bind, hbuild]
        | ok i => simp [bind, Except.bind, hbuild]

/-- A line that assembles gives no entry exactly when nothing but blanks and comment stands on it. -/
theorem eq_none_iff_of_assembleLine_eq_ok (n : Nat) (t : List Char) (r : Option Instr) (h : assembleLine n t = .ok r) :
    r = none ↔ cleanLine t = [] := by
  constructor
  · rintro rfl
    exact not_not.mp fun hne => assembleLine_ne_ok_none n t hne h
  · intro hblank
    exact Except.ok.inj (h.symm.trans (assembleLine_of_blank n t hblank))

/-! ### Arguments and their order -/

theorem buildInstr_of_length (n : Nat) (op : Opcode) (args : List Int) (h : args.length = arityOf op) :
    ∃ i, buildInstr n op args = .ok i ∧ i.opcode = op := by
  cases op with
  | const => obtain ⟨b, c, rfl⟩ := List.length_eq_two.mp h; exact ⟨.const b c, rfl, rfl⟩
  | load => obtain ⟨b, c, rfl⟩ := List.length_eq_two.mp h; exact ⟨.load b c, rfl, rfl⟩
  | store => obtain ⟨b, c, rfl⟩ := List.length_eq_two.mp h; exact ⟨.store b c, rfl, rfl⟩
  | bitrev => obtain ⟨b, d, c, rfl⟩ := List.length_eq_three.mp h; exact ⟨.bitrev b c d, rfl, rfl⟩

theorem buildInstr_of_length_ne (n : Nat) (op : Opcode) (args : List Int) (h : args.length ≠ arityOf op) :
    buildInstr n op args = .error (.wrongArgumentCount n op (arityOf op)) := by
  unfold buildInstr
  split
  · exact absurd rfl h
  · exact absurd rfl h
  · exact absurd rfl h
  · exact absurd rfl h
  · rfl

/-- Settles O16: the count decides for every mnemonic; the three failing lines of R72 by evaluation. -/
theorem argumentCountIsEnforced : Obligations.ArgumentCountIsEnforced := by
  exact ⟨fun n op args => ⟨buildInstr_of_length n op args, buildInstr_of_length_ne n op args⟩,
    by decide, by decide, by decide⟩

/-- Settles O17: each list of arguments is an arm of `buildInstr`. -/
theorem operandTextOrder : Obligations.OperandTextOrder :=
  fun _ _ _ _ => ⟨rfl, rfl, rfl, rfl⟩

/-! ### The lines of a text -/

/-- A text assembles line by line: its first line gives an entry or none, the rest gives the rest of the Program. -/
theorem assembleLines_cons_eq_ok (n : Nat) (t : List Char) (ts : List (List Char)) (p : List Instr) :
    assembleLines n (t :: ts) = .ok p ↔
      ∃ r q, assembleLine n t = .ok r ∧ assembleLines (n + 1) ts = .ok q ∧ p = r.toList ++ q := by
  cases hr : assembleLine n t with
  | error e => simp [assembleLines, hr, bind, Except.bind]
  | ok r =>
    cases hq : assembleLines (n + 1) ts with
    | error e => simp [assembleLines, hr, hq, bind, Except.bind]
    | ok q => simp [assembleLines, hr, hq, bind, Except.bind, eq_comm]

theorem reduceOption_cons {α : Type} (r : Option α) (rs : List (Option α)) :
    (r :: rs).reduceOption = r.toList ++ rs.reduceOption := by
  cases r with
  | none => exact List.reduceOption_cons_of_none rs
  | some i => exact List.reduceOption_cons_of_some i rs

/-- `rs` is what the lines `ts` assemble to, one result for each, the first of them being line `n` of the text. -/
def lineResults (n : Nat) (ts : List (List Char)) (rs : List (Option Instr)) : Prop :=
  rs.length = ts.length ∧
    ∀ (k : Nat) (t : List Char) (r : Option Instr), ts[k]? = some t → rs[k]? = some r → assembleLine (n + k) t = .ok r

theorem lineResults_cons (n : Nat) (t : List Char) (ts : List (List Char)) (r : Option Instr) (rs : List (Option Instr))
    (hr : assembleLine n t = .ok r) (hrs : lineResults (n + 1) ts rs) : lineResults n (t :: ts) (r :: rs) := by
  obtain ⟨hlen, hget⟩ := hrs
  refine ⟨congrArg (· + 1) hlen, fun k t' r' ht hr' => ?_⟩
  cases k with
  | zero =>
    obtain rfl : t = t' := Option.some.inj ht
    obtain rfl : r = r' := Option.some.inj hr'
    exact hr
  | succ k =>
    rw [← Nat.add_assoc, Nat.add_right_comm]
    exact hget k t' r' ht hr'

/-- A Program is what its lines assemble to, with the empty results left out. -/
theorem exists_lineResults_of_assembleLines_eq_ok (ts : List (List Char)) (n : Nat) (p : List Instr)
    (h : assembleLines n ts = .ok p) : ∃ rs, lineResults n ts rs ∧ p = rs.reduceOption := by
  induction ts generalizing n p with
  | nil =>
    obtain rfl : [] = p := Except.ok.inj h
    exact ⟨[], ⟨rfl, nofun⟩, rfl⟩
  | cons t ts ih =>
    obtain ⟨r, q, hr, hq, rfl⟩ := (assembleLines_cons_eq_ok n t ts p).mp h
    obtain ⟨rs, hrs, rfl⟩ := ih (n + 1) q hq
    exact ⟨r :: rs, lineResults_cons n t ts r rs hr hrs, (reduceOption_cons r rs).symm⟩

/-- No line of a text that assembles is in error. -/
theorem lineResults_ne_error (n : Nat) (ts : List (List Char)) (rs : List (Option Instr)) (h : lineResults n ts rs)
    (k : Nat) (t : List Char) (ht : ts[k]? = some t) (e : AsmError) : assembleLine (n + k) t ≠ .error e := by
  obtain ⟨hlen, hget⟩ := h
  obtain ⟨hk, -⟩ := List.getElem?_eq_some_iff.mp ht
  have hok := hget k t _ ht (List.getElem?_eq_getElem (hlen ▸ hk))
  rw [hok]
  exact nofun

/-- Settles O18. The second clause is the first read backwards: a Program would have a result for the bad line. -/
theorem assemblyIsLineByLineAndAllOrNothing : Obligations.AssemblyIsLineByLineAndAllOrNothing := by
  rintro text lines rfl
  refine ⟨fun p hp => ?_, fun k t e ht he => ?_⟩
  · obtain ⟨rs, ⟨hlen, hget⟩, rfl⟩ := exists_lineResults_of_assembleLines_eq_ok _ 0 p hp
    refine ⟨rs, hlen, fun k t r ht hr => ?_, rfl⟩
    have hline : assembleLine k t = .ok r := by simpa using hget k t r ht hr
    exact ⟨hline, eq_none_iff_of_assembleLine_eq_ok k t r hline⟩
  · cases hp : assemble text with
    | error e' => exact ⟨e', rfl⟩
    | ok p =>
      obtain ⟨rs, hrs, -⟩ := exists_lineResults_of_assembleLines_eq_ok _ 0 p hp
      exact absurd he (by simpa using lineResults_ne_error 0 _ rs hrs k t ht e)

end Sys2Proof.Machine
end

section
/-! The fetch, the step and the whole run (40_fetch_execute.md): when a step exists and what it reads, how a run ends,
and what a dump shows of the memory. -/

namespace Sys2Proof.Machine

/-! ## One step -/

/-! ### The step by what it fetches -/

theorem step_of_fetch_none (s : State) (hrun : s.status = .running) (hfetch : fetch s = none) :
    step s = .next s.halt := by
  simp [step, hrun, hfetch]

theorem step_of_decode_error (s : State) (rec : List Byte) (e : BlockError) (hrun : s.status = .running)
    (hfetch : fetch s = some rec) (hdec : decode rec = .error e) : step s = .next (s.takeError e) := by
  simp [step, hrun, hfetch, hdec]

theorem step_of_decode_ok (s : State) (rec : List Byte) (i : Instr) (hrun : s.status = .running)
    (hfetch : fetch s = some rec) (hdec : decode rec = .ok i) : step s = exec i s := by
  simp [step, hrun, hfetch, hdec]

theorem fetch_of_whole_record (s : State) (h : s.off + 11 ≤ s.prog.length) :
    fetch s = some ((s.prog.drop s.off).take 11) :=
  (fetch_eq_some s _).mpr ⟨by omega, rfl⟩

theorem step_of_no_whole_record (s : State) (hrun : s.status = .running) (h : s.prog.length < s.off + 11) :
    step s = .next s.halt :=
  step_of_fetch_none s hrun ((fetch_eq_none s).mpr (by omega))

/-- Settles O32: the fetch finds the record, and the step dispatches what DEC makes of it. -/
theorem stepRunsDecodedInstruction : Obligations.StepRunsDecodedInstruction :=
  fun s i hrun hlen hdec => step_of_decode_ok s _ i hrun (fetch_of_whole_record s hlen) hdec

/-- Settles O34; the first clause covers the machine just created with an empty PROG. -/
theorem stepHaltsWithoutWholeRecord : Obligations.StepHaltsWithoutWholeRecord :=
  ⟨step_of_no_whole_record,
    (loadProgram State.reset []).halt, step_of_no_whole_record _ rfl (by decide), rfl, fun _ => rfl⟩

/-! ### When a step exists -/

/-- An instruction always ends in a next state: an error is one too. -/
theorem exists_exec_eq_next (i : Instr) (s : State) : ∃ t, exec i s = .next t := by
  rw [exec_eq_conclude]
  cases memoryResult i s.mem with
  | ok m => exact ⟨s.retire m, rfl⟩
  | error e => exact ⟨s.takeError e, rfl⟩

theorem exists_step_of_running (s : State) (hrun : s.status = .running) : ∃ t, step s = .next t := by
  cases hfetch : fetch s with
  | none => exact ⟨s.halt, step_of_fetch_none s hrun hfetch⟩
  | some rec =>
    cases hdec : decode rec with
    | error e => exact ⟨s.takeError e, step_of_decode_error s rec e hrun hfetch hdec⟩
    | ok i =>
      rw [step_of_decode_ok s rec i hrun hfetch hdec]
      exact exists_exec_eq_next i s

theorem running_of_step (s t : State) (h : step s = .next t) : s.status = .running :=
  ((step_eq_next s t).mp h).left

/-- Settles O33. -/
theorem stepExistsExactlyWhileRunning : Obligations.StepExistsExactlyWhileRunning :=
  fun s => ⟨fun ⟨t, h⟩ => running_of_step s t h, exists_step_of_running s⟩

/-! ### What the fetch reads -/

theorem getElem?_record (prog : List Byte) (off k : Nat) (hk : k < 11) :
    ((prog.drop off).take 11)[k]? = prog[off + k]? := by
  rw [List.getElem?_take_of_lt hk, List.getElem?_drop]

/-- The record at an offset is determined by its 11 bytes. -/
theorem record_congr (prog prog' : List Byte) (off : Nat) (h : ∀ k, k < 11 → prog[off + k]? = prog'[off + k]?) :
    (prog.drop off).take 11 = (prog'.drop off).take 11 := by
  apply List.ext_getElem?
  intro k
  by_cases hk : k < 11
  · rw [getElem?_record prog off k hk, getElem?_record prog' off k hk, h k hk]
  · rw [List.getElem?_take_eq_none (by omega), List.getElem?_take_eq_none (by omega)]

/-- Every fault record a step writes holds a cause the VM itself can raise (R23), from any state. -/
theorem vmCause_of_step_fault (s t : State) (e : BlockError) (o : Nat) (h : step s = .next t)
    (ht : t.status = .faulted e o) : vmCause e = true := by
  obtain ⟨hrun, ⟨-, rfl⟩ | ⟨-, rec, hlen, ⟨i, m, -, -, rfl⟩ | ⟨e', he, rfl⟩⟩⟩ := step_cases s t h
  · exact nomatch ht
  · exact nomatch hrun.symm.trans ht
  · obtain ⟨rfl, -⟩ := RunStatus.faulted.inj ht
    obtain hdec | ⟨i, hdec, herr⟩ := he
    · exact vmCause_of_decode_error rec e' hlen hdec
    · exact vmCause_of_memoryResult_error i s.mem e' (decodedOperandsFitFields rec i hdec) herr

/-- Settles O35: the fetched record is a slice of PROG, and a wrong length is no cause a step records. -/
theorem stepFetchesWholeRecord : Obligations.StepFetchesWholeRecord := by
  intro s t _ hlen h
  refine ⟨⟨_, fetch_of_whole_record s hlen, ?_, fun k hk => getElem?_record s.prog s.off k hk⟩, fun n o ht => ?_⟩
  · rw [List.length_take, List.length_drop]
    omega
  · exact nomatch vmCause_of_step_fault s t (.decodeLength n) o h ht

/-! ### What a step does not read -/

/-- An instruction does the same whatever PROG stands beside the memory. -/
theorem exec_loadProgram (i : Instr) (s t : State) (p : List Byte) (h : exec i s = .next t) :
    exec i (loadProgram s p) = .next (loadProgram t p) := by
  refine (exec_eq_next i _ _).mpr ?_
  obtain ⟨m, hm, rfl⟩ | ⟨e, he, rfl⟩ := (exec_eq_next i s t).mp h
  · exact .inl ⟨m, hm, rfl⟩
  · exact .inr ⟨e, he, rfl⟩

/-- A step sees of PROG what it fetches and nothing more. -/
theorem step_loadProgram (s t : State) (p : List Byte) (hfetch : fetch (loadProgram s p) = fetch s)
    (h : step s = .next t) : step (loadProgram s p) = .next (loadProgram t p) := by
  refine (step_eq_next _ _).mpr ?_
  rw [hfetch]
  obtain ⟨hrun, ⟨hnone, rfl⟩ | ⟨rec, hsome, ⟨e, hdec, rfl⟩ | ⟨i, hdec, hexec⟩⟩⟩ := (step_eq_next s t).mp h
  · exact ⟨hrun, .inl ⟨hnone, rfl⟩⟩
  · exact ⟨hrun, .inr ⟨rec, hsome, .inl ⟨e, hdec, rfl⟩⟩⟩
  · exact ⟨hrun, .inr ⟨rec, hsome, .inr ⟨i, hdec, exec_loadProgram i s t p hexec⟩⟩⟩

theorem eq_loadProgram (s s' : State) (hmem : s.mem = s'.mem) (hoff : s.off = s'.off) (hstatus : s.status = s'.status) :
    s' = loadProgram s s'.prog := by
  rw [loadProgram, hmem, hoff, hstatus]

/-- Settles O40: the second state is the first with another PROG, from which the fetch takes the same record. -/
theorem stepReadsOnlyTheRecordAtOffset : Obligations.StepReadsOnlyTheRecordAtOffset := by
  intro s s' t hmem hoff hstatus hlen hlen' hbytes h
  have hs' : s' = loadProgram s s'.prog := eq_loadProgram s s' hmem hoff hstatus
  have hfetch : fetch s' = fetch s := by
    rw [fetch_of_whole_record s hlen, fetch_of_whole_record s' hlen', ← hoff]
    exact congrArg some (record_congr s.prog s'.prog s.off (by simpa [hoff] using hbytes)).symm
  rw [hs'] at hfetch ⊢
  exact step_loadProgram s t s'.prog hfetch h

/-! ## Whole runs -/

/-! ### The steps of a run -/

theorem runFor_succ_of_next (n : Nat) (s t : State) (h : step s = .next t) : runFor (n + 1) s = runFor n t := by
  simp [runFor, h]

/-- A run that is over stays where it is (R77). -/
theorem runFor_of_over (n : Nat) (s : State) (hover : s.status ≠ .running) : runFor n s = s := by
  cases n with
  | zero => rfl
  | succ n =>
    unfold runFor
    split
    · next t h => exact absurd (running_of_step s t h) hover
    · rfl
    · rfl

theorem runFor_add (m n : Nat) (s : State) : runFor (m + n) s = runFor n (runFor m s) := by
  induction m generalizing s with
  | zero => rw [Nat.zero_add]; rfl
  | succ m ih =>
    by_cases hrun : s.status = .running
    · obtain ⟨t, h⟩ := exists_step_of_running s hrun
      rw [Nat.add_right_comm, runFor_succ_of_next _ s t h, runFor_succ_of_next m s t h, ih]
    · rw [runFor_of_over _ s hrun, runFor_of_over _ s hrun, runFor_of_over n s hrun]

/-! ### How a run ends -/

/-- The first `k` records from `s` on complete, one step each. -/
def completesRecords (s : State) (k : Nat) : Prop :=
  ∀ j, j ≤ k → (runFor j s).status = .running ∧ (runFor j s).off = s.off + 11 * j

/-- The first `k` records complete, and the step after them sets the status `x` and nothing else. -/
def endsAfter (s : State) (k : Nat) (x : RunStatus) : Prop :=
  completesRecords s k ∧ runFor (k + 1) s = { runFor k s with status := x }

theorem completesRecords_zero (s : State) (hrun : s.status = .running) : completesRecords s 0 := by
  intro j hj
  obtain rfl : j = 0 := by omega
  exact ⟨hrun, rfl⟩

theorem endsAfter_zero (s : State) (x : RunStatus) (hrun : s.status = .running)
    (h : step s = .next { s with status := x }) : endsAfter s 0 x :=
  ⟨completesRecords_zero s hrun, runFor_succ_of_next 0 s _ h⟩

/-- A completed record in front lengthens the run by one step. -/
theorem endsAfter_succ (s t : State) (k : Nat) (x : RunStatus) (h : step s = .next t) (hoff : t.off = s.off + 11)
    (ht : endsAfter t k x) : endsAfter s (k + 1) x := by
  obtain ⟨hrecords, hend⟩ := ht
  refine ⟨fun j hj => ?_, ?_⟩
  · cases j with
    | zero => exact ⟨running_of_step s t h, rfl⟩
    | succ j =>
      obtain ⟨hrun, hj_off⟩ := hrecords j (by omega)
      rw [runFor_succ_of_next j s t h]
      exact ⟨hrun, by omega⟩
  · rw [runFor_succ_of_next _ s t h, runFor_succ_of_next k s t h, hend]

/-- By induction on the whole records left: a record completes and leaves one fewer, or its error ends the run; where
none is left the step halts. -/
theorem endsAfter_cases (N : Nat) (s : State) (hrun : s.status = .running) (hle : s.off ≤ s.prog.length)
    (hN : N = (s.prog.length - s.off) / 11) :
    endsAfter s N .halted ∨ ∃ k e, k < N ∧ endsAfter s k (.faulted e (s.off + 11 * k)) := by
  induction N generalizing s with
  | zero => exact .inl (endsAfter_zero s .halted hrun (step_of_no_whole_record s hrun (by omega)))
  | succ N ih =>
    obtain ⟨t, h⟩ := exists_step_of_running s hrun
    obtain ⟨-, ⟨hshort, -⟩ | ⟨hrec, -, -, ⟨i, m, -, -, rfl⟩ | ⟨e, -, rfl⟩⟩⟩ := step_cases s t h
    · omega
    · obtain hhalt | ⟨k, e, hk, hfault⟩ := ih (s.retire m) hrun hrec (by simp only [retire_prog, retire_off]; omega)
      · exact .inl (endsAfter_succ s _ N .halted h rfl hhalt)
      · have hoff : (s.retire m).off + 11 * k = s.off + 11 * (k + 1) := by rw [retire_off]; omega
        exact .inr ⟨k + 1, e, by omega, endsAfter_succ s _ k _ h rfl (hoff ▸ hfault)⟩
    · exact .inr ⟨0, e, by omega, endsAfter_zero s _ hrun h⟩

/-- After the step that ended it a run never changes. -/
theorem runFor_of_endsAfter (s : State) (k n : Nat) (x : RunStatus) (h : endsAfter s k x) (hx : x ≠ .running)
    (hn : k < n) : runFor n s = runFor (k + 1) s := by
  obtain ⟨-, hend⟩ := h
  have hover : (runFor (k + 1) s).status ≠ .running := by rw [hend]; exact hx
  obtain ⟨d, rfl⟩ := Nat.exists_eq_add_of_le (Nat.succ_le_of_lt hn)
  rw [runFor_add, runFor_of_over d _ hover]

/-- No run needs more steps than `run` takes, because no more whole records are left than PROG holds (R85). -/
theorem run_of_endsAfter (s : State) (k : Nat) (x : RunStatus) (h : endsAfter s k x) (hx : x ≠ .running)
    (hk : k ≤ (s.prog.length - s.off) / 11) : run s = runFor (k + 1) s :=
  runFor_of_endsAfter s k _ x h hx (by simp only [Config.recBytes]; omega)

/-- Settles O45: how the run ends by `endsAfter_cases`; that it stays so, and that `run` gets there, hold of either
ending. -/
theorem runHaltsOrFaultsAtFirstBadRecord : Obligations.RunHaltsOrFaultsAtFirstBadRecord := by
  intro s N hrun hle hN
  obtain hhalt | ⟨k, e, hk, hfault⟩ := endsAfter_cases N s hrun hle hN
  · exact .inl ⟨hhalt.left, hhalt.right, fun n hn => runFor_of_endsAfter s N n _ hhalt nofun hn,
      run_of_endsAfter s N _ hhalt nofun (by omega)⟩
  · exact .inr ⟨k, e, hk, hfault.left, hfault.right, fun n hn => runFor_of_endsAfter s k n _ hfault nofun hn,
      run_of_endsAfter s k _ hfault nofun (by omega)⟩

/-! ## The dump -/

theorem dump_of_range (s : State) (start stop : Nat) (hle : start ≤ stop) (hstop : stop ≤ 2048) :
    dump s start stop = .ok ((List.range' start (stop - start)).map fun a => (Memory.read s.mem a).toNat) := by
  have hrange : 0 ≤ (start : Int) ∧ (start : Int) ≤ stop ∧ (stop : Int) ≤ (Config.memWords : Nat) := by
    simp only [Config.memWords]
    omega
  have hcount : ((stop : Int) - start).toNat = stop - start := by omega
  rw [dump, if_pos hrange, hcount, Int.toNat_natCast]

/-- Settles O47: the list is that of the addresses from `start` on, each read. -/
theorem dumpListsTheRange : Obligations.DumpListsTheRange := by
  intro s start stop hle hstop
  refine ⟨_, dump_of_range s start stop hle hstop, ?_, fun k hk => ?_⟩
  · rw [List.length_map, List.length_range']
  · rw [List.getElem?_map, List.getElem?_range' hk, Nat.one_mul, Option.map_some]

end Sys2Proof.Machine
end

section
/-! CONST, LOAD and STORE (41_const_load_store.md): each completes with its one write, or takes the error of the first
bad address of its pseudocode. Both ends are read off `memoryResult`, address by address. -/

namespace Sys2Proof.Machine

/-! ### The checked accesses by the address alone -/

theorem memRead_of_lt (m : Memory) (a : Int) (h0 : 0 ≤ a) (h : a < 2048) :
    memRead m a = .ok (Memory.read m a.toNat) :=
  (memRead_eq_ok m a _).mpr ⟨⟨h0, h⟩, rfl⟩

theorem not_inMemory_of_le (a : Int) (h : 2048 ≤ a) : ¬ inMemory a := fun hin => not_lt.mpr h hin.2

theorem memRead_of_le (m : Memory) (a : Int) (h : 2048 ≤ a) : memRead m a = .error (.addressFault a) :=
  (memRead_eq_error m a _).mpr ⟨not_inMemory_of_le a h, rfl⟩

theorem memWrite_of_le (m : Memory) (a v : Int) (h : 2048 ≤ a) : memWrite m a v = .error (.addressFault a) :=
  (memWrite_eq_error m a v _).mpr ⟨not_inMemory_of_le a h, rfl⟩

/-! ### A sequence of accesses by what its first access answers -/

theorem bind_of_ok {α β : Type} (x : Except BlockError α) (f : α → Except BlockError β) (a : α)
    (h : x = .ok a) : (x >>= f) = f a := by
  rw [h]; rfl

theorem bind_of_error {α β : Type} (x : Except BlockError α) (f : α → Except BlockError β) (e : BlockError)
    (h : x = .error e) : (x >>= f) = .error e := by
  rw [h]; rfl

/-! ### The word behind a pointer, by the pointer cell and the pointer -/

theorem indirect_of_cell_le (m : Memory) (b : Int) (h : 2048 ≤ b) : indirect m b = .error (.addressFault b) :=
  (indirect_eq_error m b _).mpr (.inl (memRead_of_le m b h))

/-- Once the pointer cell `b` is in range, the pointer `p` it holds is read as an address. -/
theorem indirect_of_cell_lt (m : Memory) (b p : Int) (h0 : 0 ≤ b) (h : b < 2048)
    (hp : p = (Memory.read m b.toNat).toNat) : indirect m b = memRead m p :=
  hp ▸ bind_of_ok _ _ _ (memRead_of_lt m b h0 h)

theorem indirect_of_pointer_lt (m : Memory) (b p : Int) (h0 : 0 ≤ b) (h : b < 2048)
    (hp : p = (Memory.read m b.toNat).toNat) (hlt : p < 2048) : indirect m b = .ok (Memory.read m p.toNat) :=
  (indirect_of_cell_lt m b p h0 h hp).trans (memRead_of_lt m p (hp ▸ Int.natCast_nonneg _) hlt)

theorem indirect_of_pointer_le (m : Memory) (b p : Int) (h0 : 0 ≤ b) (h : b < 2048)
    (hp : p = (Memory.read m b.toNat).toNat) (hle : 2048 ≤ p) : indirect m b = .error (.addressFault p) :=
  (indirect_of_cell_lt m b p h0 h hp).trans (memRead_of_le m p hle)

/-! ### LOAD and STORE by what their operand forms answer -/

theorem memoryResult_load_of_ok (m : Memory) (b c : Int) (v : Word) (h : indirect m b = .ok v) :
    memoryResult (.load b c) m = memWrite m c (addressOf v) :=
  bind_of_ok _ _ v h

theorem memoryResult_load_of_error (m : Memory) (b c : Int) (e : BlockError) (h : indirect m b = .error e) :
    memoryResult (.load b c) m = .error e :=
  bind_of_error _ _ e h

theorem memoryResult_store_of_ok (m : Memory) (b c : Int) (v w : Word) (hv : indirect m b = .ok v)
    (hw : indirect m c = .ok w) : memoryResult (.store b c) m = memWrite m (addressOf w) (addressOf v) :=
  (bind_of_ok _ _ v hv).trans (bind_of_ok _ _ w hw)

theorem memoryResult_store_of_source_error (m : Memory) (b c : Int) (e : BlockError) (h : indirect m b = .error e) :
    memoryResult (.store b c) m = .error e :=
  bind_of_error _ _ e h

theorem memoryResult_store_of_destination_error (m : Memory) (b c : Int) (v : Word) (e : BlockError)
    (hv : indirect m b = .ok v) (he : indirect m c = .error e) : memoryResult (.store b c) m = .error e :=
  (bind_of_ok _ _ v hv).trans (bind_of_error _ _ e he)

/-! ### The two ends of an instruction -/

/-- An instruction whose memory effect is one write inside the memory completes with that write. -/
theorem exec_completes_of_write (i : Instr) (s : State) (a v : Int) (hm : Memory.wf s.mem = true) (h0 : 0 ≤ a)
    (hlt : a < 2048) (h : memoryResult i s.mem = memWrite s.mem a v) :
    ∃ t, exec i s = .next t ∧ completedWith s t a.toNat (BitVec.ofInt 64 v) := by
  have hw : memWrite s.mem a v = .ok (Memory.write s.mem a.toNat (BitVec.ofInt 64 v)) :=
    (memWrite_eq_ok _ _ _ _).mpr ⟨⟨h0, hlt⟩, rfl⟩
  exact ⟨_, (exec_eq_next i s _).mpr (.inl ⟨_, h.trans hw, rfl⟩), Memory.read_write_same _ _ _ hm,
    fun k hk => Memory.read_write_other _ _ _ _ hk, retire_off _ _, retire_status _ _, retire_prog _ _⟩

/-- The same for a write of a word, which `mask_64` leaves as it is. -/
theorem exec_completes_of_write_word (i : Instr) (s : State) (a : Int) (w : Word) (hm : Memory.wf s.mem = true)
    (h0 : 0 ≤ a) (hlt : a < 2048) (h : memoryResult i s.mem = memWrite s.mem a (addressOf w)) :
    ∃ t, exec i s = .next t ∧ completedWith s t a.toNat w :=
  ofInt_addressOf w ▸ exec_completes_of_write i s a (addressOf w) hm h0 hlt h

/-- An instruction that raises an error leaves only its fault record (the spec's D4, D5, D11). -/
theorem exec_faults_of_error (i : Instr) (s : State) (e : BlockError) (h : memoryResult i s.mem = .error e) :
    exec i s = .next { s with status := .faulted e s.off } :=
  (exec_eq_next i s _).mpr (.inr ⟨e, h, rfl⟩)

/-! ### The three statements -/

/-- Settles O23: CONST's memory effect is the write of its literal at C, and a literal of 23 bits is its own residue
modulo 2^64. -/
theorem constWritesLiteral : Obligations.ConstWritesLiteral := by
  intro s b c hm hwf
  obtain ⟨⟨hb0, hb⟩, hc0, -⟩ := (wellFormed_const b c).mp hwf
  refine ⟨fun hc => ?completes, fun hc => exec_faults_of_error _ s _ (memWrite_of_le s.mem c b hc)⟩
  case completes =>
    obtain ⟨t, hexec, hdone⟩ := exec_completes_of_write (.const b c) s c b hm hc0 hc rfl
    have hresidue : ((BitVec.ofInt 64 b).toNat : Int) = b :=
      (toNat_ofInt_word b).trans (Int.emod_eq_of_lt hb0 (by omega))
    exact ⟨t, _, hexec, hdone, hresidue⟩

/-- Settles O24, along R93: the pointer cell B, the pointer p, then the write at C. -/
theorem loadCopiesWordBehindPointer : Obligations.LoadCopiesWordBehindPointer := by
  intro s b c p hm hwf hp
  obtain ⟨⟨hb0, -⟩, hc0, -⟩ := (wellFormed_load b c).mp hwf
  have hwrite (hb : b < 2048) (hpl : p < 2048) :
      memoryResult (.load b c) s.mem = memWrite s.mem c (addressOf (Memory.read s.mem p.toNat)) :=
    memoryResult_load_of_ok s.mem b c _ (indirect_of_pointer_lt s.mem b p hb0 hb hp hpl)
  refine ⟨fun hb hpl hc => ?completes, fun hb => ?badCell, fun hb hpl => ?badPointer, fun hb hpl hc => ?badTarget⟩
  case completes => exact exec_completes_of_write_word _ s c _ hm hc0 hc (hwrite hb hpl)
  all_goals refine exec_faults_of_error _ s _ ?_
  case badCell => exact memoryResult_load_of_error s.mem b c _ (indirect_of_cell_le s.mem b hb)
  case badPointer => exact memoryResult_load_of_error s.mem b c _ (indirect_of_pointer_le s.mem b p hb0 hb hp hpl)
  case badTarget => exact (hwrite hb hpl).trans (memWrite_of_le s.mem c _ hc)

/-- Settles O25, along R94: both operand forms in their order, then the write at the word the second one reads. -/
theorem storeWritesThroughBothPointers : Obligations.StoreWritesThroughBothPointers := by
  intro s b c p q dest hm hwf hp hq hdest
  obtain ⟨⟨hb0, -⟩, hc0, -⟩ := (wellFormed_store b c).mp hwf
  have hsource (hb : b < 2048) (hpl : p < 2048) : indirect s.mem b = .ok (Memory.read s.mem p.toNat) :=
    indirect_of_pointer_lt s.mem b p hb0 hb hp hpl
  have hwrite (hb : b < 2048) (hpl : p < 2048) (hc : c < 2048) (hql : q < 2048) :
      memoryResult (.store b c) s.mem = memWrite s.mem dest (addressOf (Memory.read s.mem p.toNat)) :=
    hdest ▸ memoryResult_store_of_ok s.mem b c _ _ (hsource hb hpl) (indirect_of_pointer_lt s.mem c q hc0 hc hq hql)
  refine ⟨fun hb hpl hc hql hd => ?completes, fun hb => ?badSourceCell, fun hb hpl => ?badSourcePointer,
    fun hb hpl hc => ?badTargetCell, fun hb hpl hc hql => ?badTargetPointer, fun hb hpl hc hql hd => ?badTarget⟩
  case completes =>
    exact exec_completes_of_write_word _ s dest _ hm (hdest ▸ Int.natCast_nonneg _) hd (hwrite hb hpl hc hql)
  all_goals refine exec_faults_of_error _ s _ ?_
  case badSourceCell => exact memoryResult_store_of_source_error s.mem b c _ (indirect_of_cell_le s.mem b hb)
  case badSourcePointer =>
    exact memoryResult_store_of_source_error s.mem b c _ (indirect_of_pointer_le s.mem b p hb0 hb hp hpl)
  case badTargetCell =>
    exact memoryResult_store_of_destination_error s.mem b c _ _ (hsource hb hpl) (indirect_of_cell_le s.mem c hc)
  case badTargetPointer =>
    exact memoryResult_store_of_destination_error s.mem b c _ _ (hsource hb hpl)
      (indirect_of_pointer_le s.mem c q hc0 hc hq hql)
  case badTarget => exact (hwrite hb hpl hc hql).trans (memWrite_of_le s.mem dest _ hd)

end Sys2Proof.Machine
end

section
/-! The bit-reverse unit and BITREV (42_bitrev.md): R96's sum is the library's `BitVec.reverse`, and BITREV is a read of
`M[M[B] + D]` and a write of the reversed word, or the error of the first bad address. -/

namespace Sys2Proof.Machine

/-! ### The bit-reverse unit -/

theorem revSum_eq_sum (x : Word) (n : Nat) :
    revSum x n = (Finset.range n).sum fun i => if x.getLsbD i then 2 ^ (63 - i) else 0 := by
  induction n with
  | zero => rfl
  | succ n ih => rw [revSum, Finset.sum_range_succ, ih]

/-- The weighted sum of its low `n` bits is a word modulo `2^n`. -/
theorem sum_low_bits_eq_mod (y : Word) (n : Nat) :
    ((Finset.range n).sum fun i => if y.getLsbD i then 2 ^ i else 0) = y.toNat % 2 ^ n := by
  induction n with
  | zero => rw [Finset.sum_range_zero, pow_zero, Nat.mod_one]
  | succ n ih =>
    rw [Finset.sum_range_succ, ih, Nat.mod_pow_succ, ← Nat.toNat_testBit, BitVec.testBit_toNat]
    cases y.getLsbD n <;> simp

/-- Bit `i` of a word is bit `63 - i` of its reverse. -/
theorem getLsbD_reverse_mirror (x : Word) (i : Nat) (hi : i < 64) : x.reverse.getLsbD (63 - i) = x.getLsbD i := by
  rw [← BitVec.getMsbD_reverse (x := x), BitVec.getMsbD_eq_getLsbD, decide_eq_true hi, Bool.true_and]

/-- Read from its other end, R96's sum is the sum of the reversed word's own bits. -/
theorem revSum_eq_toNat_reverse (x : Word) : revSum x 64 = x.reverse.toNat := by
  calc revSum x 64
    _ = (Finset.range 64).sum fun i => if x.reverse.getLsbD (64 - 1 - i) then 2 ^ (64 - 1 - i) else 0 := by
      rw [revSum_eq_sum]
      refine Finset.sum_congr rfl fun i hi => ?_
      rw [getLsbD_reverse_mirror x i (Finset.mem_range.mp hi)]
    _ = (Finset.range 64).sum fun i => if x.reverse.getLsbD i then 2 ^ i else 0 :=
      Finset.sum_range_reflect (fun i => if x.reverse.getLsbD i then 2 ^ i else 0) 64
    _ = x.reverse.toNat := by rw [sum_low_bits_eq_mod, Nat.mod_eq_of_lt x.reverse.isLt]

theorem rev64_eq_reverse (x : Word) : rev64 x = x.reverse := by
  rw [rev64, revSum_eq_toNat_reverse, BitVec.ofNat_toNat, BitVec.setWidth_eq]

theorem rev64_rev64 (x : Word) : rev64 (rev64 x) = x := by
  rw [rev64_eq_reverse, rev64_eq_reverse, BitVec.reverse_reverse_eq]

theorem getLsbD_rev64 (x : Word) (i : Nat) (hi : i < 64) : (rev64 x).getLsbD (63 - i) = x.getLsbD i := by
  rw [rev64_eq_reverse, getLsbD_reverse_mirror x i hi]

/-- Settles O21: the mirror is the reversed word's, and the sum is R96's with nothing cut off. -/
theorem reverseMovesBitToMirror : Obligations.ReverseMovesBitToMirror := by
  intro x
  refine ⟨getLsbD_rev64 x, ?_⟩
  rw [rev64_eq_reverse, ← revSum_eq_toNat_reverse, revSum_eq_sum]

/-- Settles O22; the source's three values by evaluation. -/
theorem reverseIsItsOwnInverse : Obligations.ReverseIsItsOwnInverse :=
  ⟨rev64_rev64, by decide, by decide, by decide⟩

/-! ### The word at a base pointer plus an offset, by the pointer cell and the sum -/

theorem indexed_of_cell_le (m : Memory) (b d : Int) (h : 2048 ≤ b) : indexed m b d = .error (.addressFault b) :=
  (indexed_eq_error m b d _).mpr (.inl (memRead_of_le m b h))

/-- Once the base cell `b` is in range, the exact sum `ea` is read as an address (R99). -/
theorem indexed_of_cell_lt (m : Memory) (b d ea : Int) (h0 : 0 ≤ b) (h : b < 2048)
    (hea : ea = (Memory.read m b.toNat).toNat + d) : indexed m b d = memRead m ea :=
  hea ▸ bind_of_ok _ _ _ (memRead_of_lt m b h0 h)

/-! ### BITREV by what its operand form answers -/

theorem memoryResult_bitrev_of_ok (m : Memory) (b c d : Int) (v : Word) (h : indexed m b d = .ok v) :
    memoryResult (.bitrev b c d) m = memWrite m c (addressOf (rev64 v)) :=
  bind_of_ok _ _ v h

theorem memoryResult_bitrev_of_error (m : Memory) (b c d : Int) (e : BlockError) (h : indexed m b d = .error e) :
    memoryResult (.bitrev b c d) m = .error e :=
  bind_of_error _ _ e h

/-- With both reads in range, BITREV's memory effect is one write of the reversed word at C. -/
theorem memoryResult_bitrev_of_lt (m : Memory) (b c d ea : Int) (hwf : (Instr.bitrev b c d).wellFormed = true)
    (hea : ea = (Memory.read m b.toNat).toNat + d) (hb : b < 2048) (hlt : ea < 2048) :
    memoryResult (.bitrev b c d) m = memWrite m c (addressOf (rev64 (Memory.read m ea.toNat))) := by
  obtain ⟨⟨hb0, -⟩, -, hd0, -⟩ := (wellFormed_bitrev b c d).mp hwf
  have hea0 : 0 ≤ ea := by omega
  exact memoryResult_bitrev_of_ok m b c d _
    ((indexed_of_cell_lt m b d ea hb0 hb hea).trans (memRead_of_lt m ea hea0 hlt))

theorem exec_bitrev_completes (s : State) (b c d ea : Int) (hm : Memory.wf s.mem = true)
    (hwf : (Instr.bitrev b c d).wellFormed = true) (hea : ea = (Memory.read s.mem b.toNat).toNat + d) (hb : b < 2048)
    (hlt : ea < 2048) (hc : c < 2048) :
    ∃ t, exec (.bitrev b c d) s = .next t ∧ completedWith s t c.toNat (rev64 (Memory.read s.mem ea.toNat)) := by
  obtain ⟨-, ⟨hc0, -⟩, -⟩ := (wellFormed_bitrev b c d).mp hwf
  exact exec_completes_of_write_word _ s c _ hm hc0 hc (memoryResult_bitrev_of_lt s.mem b c d ea hwf hea hb hlt)

/-- Settles O26, along R100: the base cell B, the sum ea, then the write at C. -/
theorem bitrevWritesReversedIndexedWord : Obligations.BitrevWritesReversedIndexedWord := by
  intro s b c d ea hm hwf hea
  obtain ⟨⟨hb0, -⟩, -⟩ := (wellFormed_bitrev b c d).mp hwf
  refine ⟨fun hb hlt hc => ?completes, fun hb => ?badCell, fun hb hle => ?badSum, fun hb hlt hc => ?badTarget⟩
  case completes =>
    obtain ⟨t, hexec, hdone⟩ := exec_bitrev_completes s b c d ea hm hwf hea hb hlt hc
    exact ⟨t, _, hexec, hdone, getLsbD_rev64 _⟩
  all_goals refine exec_faults_of_error _ s _ ?_
  case badCell => exact memoryResult_bitrev_of_error s.mem b c d _ (indexed_of_cell_le s.mem b d hb)
  case badSum =>
    exact memoryResult_bitrev_of_error s.mem b c d _
      ((indexed_of_cell_lt s.mem b d ea hb0 hb hea).trans (memRead_of_le s.mem ea hle))
  case badTarget =>
    exact (memoryResult_bitrev_of_lt s.mem b c d ea hwf hea hb hlt).trans (memWrite_of_le s.mem c _ hc)

/-! ### BITREV in place -/

theorem exec_keeps_mem_wf (i : Instr) (s t : State) (hm : Memory.wf s.mem = true) (h : exec i s = .next t) :
    Memory.wf t.mem = true := by
  obtain ⟨m, hr, rfl⟩ | ⟨e, -, rfl⟩ := (exec_eq_next i s t).mp h
  · exact memoryResult_wf i s.mem m hm hr
  · exact hm

/-- Two completions that write the same word, the second one its old value, leave every word as it was. -/
theorem read_of_completedWith_twice (s t u : State) (a : Nat) (v : Word) (h₁ : completedWith s t a v)
    (h₂ : completedWith t u a (Memory.read s.mem a)) (k : Nat) : Memory.read u.mem k = Memory.read s.mem k := by
  obtain ⟨-, hother₁, -⟩ := h₁
  obtain ⟨hsame₂, hother₂, -⟩ := h₂
  by_cases hk : k = a
  · rw [hk, hsame₂]
  · rw [hother₂ k hk, hother₁ k hk]

/-- Settles O28: the base cell is not the target, so the second run finds the same sum, and reverses the word back. -/
theorem bitrevTwiceInPlaceRestoresMemory : Obligations.BitrevTwiceInPlaceRestoresMemory := by
  intro s b c d hm hwf hb hc hbc hea
  obtain ⟨⟨hb0, -⟩, ⟨hc0, -⟩, -⟩ := (wellFormed_bitrev b c d).mp hwf
  obtain ⟨t, hexec₁, hdone₁⟩ := exec_bitrev_completes s b c d c hm hwf hea hb hc hc
  have ⟨hword, hother, hoff₁, _⟩ := hdone₁
  have hea' : c = (Memory.read t.mem b.toNat).toNat + d := by rwa [hother b.toNat (by omega)]
  obtain ⟨u, hexec₂, hdone₂⟩ :=
    exec_bitrev_completes t b c d c (exec_keeps_mem_wf _ s t hm hexec₁) hwf hea' hb hc hc
  rw [hword, rev64_rev64] at hdone₂
  have ⟨_, _, hoff₂, _⟩ := hdone₂
  exact ⟨t, u, hexec₁, hexec₂, read_of_completedWith_twice s t u c.toNat _ hdone₁ hdone₂, by omega⟩

end Sys2Proof.Machine
end

section
/-! The state after VM creation (70_reset_and_hazards.md R120), before and after the host fixes PROG (R123). -/

namespace Sys2Proof.Machine

/-- Creation lists no word, so every word holds what nothing has written. -/
theorem read_reset_mem (a : Nat) : Memory.read State.reset.mem a = 0 := rfl

/-- Settles O42: every address in range is read, and the word there is unwritten. -/
theorem resetIsFreshMachine : Obligations.ResetIsFreshMachine := by
  refine ⟨fun a h0 hlt => ?_, rfl, rfl⟩
  calc memRead State.reset.mem a
    _ = .ok (Memory.read State.reset.mem a.toNat) := memRead_of_lt _ a h0 hlt
    _ = .ok 0 := by rw [read_reset_mem]

/-- A Running state at offset 0 is legal with any PROG, the empty one included, once its memory is canonical. -/
theorem inv_of_running_of_off_eq_zero (s : State) (hm : Memory.wf s.mem = true) (hoff : s.off = 0)
    (hrun : s.status = .running) : s.Inv = true := by
  refine (inv_iff s).mpr ⟨hm, ?_, ?_, statusLegal_running s hrun⟩
  · rw [hoff]
  · rw [hoff]; exact Nat.zero_le _

/-- Settles O43: fixing PROG moves neither the memory, `off` nor the status. -/
theorem loadedResetMeetsInvariant : Obligations.LoadedResetMeetsInvariant :=
  ⟨inv_of_running_of_off_eq_zero _ Memory.wf_reset rfl rfl,
    fun prog => inv_of_running_of_off_eq_zero (loadProgram State.reset prog)
      Memory.wf_reset (loadProgram_off _ _) (loadProgram_status _ _)⟩

end Sys2Proof.Machine
end

section
/-! ENC after DEC, the bytes of a record and raw tags (30_encoding.md sections 2 to 5): ENC rebuilds of a decoded record
exactly the bits its format reads, so what DEC ignores is what ENC loses. -/

namespace Sys2Proof

open Machine

/-! ### Masks and slices -/

/-- Settles O1: the residue is the number the truncated word holds. -/
theorem maskIsTwosComplementTruncation : Obligations.MaskIsTwosComplementTruncation := by
  intro w x
  refine ⟨natCast_maskField w x, maskField_lt w x, ?_⟩
  rw [maskField, BitVec.toNat_ofInt, Nat.cast_pow, Nat.cast_ofNat]

/-- Masking a slice to its own width leaves it as it is. -/
theorem maskField_slice (w r hi lo : Nat) (hw : hi - lo + 1 = w) : maskField w (slice r hi lo) = slice r hi lo :=
  Int.ofNat.inj (maskField_of_fits w _ (slice_fitsField w r hi lo hw))

theorem slice_eq_div_mod (v hi lo : Nat) : slice v hi lo = v / 2 ^ lo % 2 ^ (hi - lo + 1) := by
  rw [slice, Nat.shiftRight_eq_div_pow]

/-! ### The fields of a record, put together again -/

/-- Format C reads every bit below 53. -/
theorem constNumber_of_slices (r : Nat) (h : slice r 3 0 = 4) :
    constNumber (slice r 26 4) (slice r 52 27) = r % 2 ^ 53 := by
  simp only [slice_eq_div_mod, constNumber] at *
  omega

/-- LOAD and STORE read every bit below 56. -/
theorem memNumber_of_slices (r tag : Nat) (h : slice r 3 0 = tag) :
    memNumber tag (slice r 29 4) (slice r 55 30) 0 = r % 2 ^ 56 := by
  simp only [slice_eq_div_mod, memNumber] at *
  omega

/-- BITREV reads every bit below 63. -/
theorem memNumber_of_slices_with_offset (r tag : Nat) (h : slice r 3 0 = tag) :
    memNumber tag (slice r 29 4) (slice r 55 30) (slice r 62 56) = r % 2 ^ 63 := by
  simp only [slice_eq_div_mod, memNumber] at *
  omega

/-- How many low bits of a record the instruction's tag and fields fill (R50, R51). -/
def Instr.recordBits : Instr → Nat
  | .const _ _ => 53
  | .load _ _ => 56
  | .store _ _ => 56
  | .bitrev _ _ _ => 63

theorem eq_tag_of_ofTag_eq_some (t : Nat) (o : Opcode) (h : Opcode.ofTag t = some o) : t = o.tag := by
  unfold Opcode.ofTag at h
  split at h
  · obtain rfl := Option.some.inj h; rfl
  · obtain rfl := Option.some.inj h; rfl
  · obtain rfl := Option.some.inj h; rfl
  · obtain rfl := Option.some.inj h; rfl
  · exact nomatch h

/-- ENC of what DEC makes of a number is that number with the ignored bits cleared (the spec's D8). -/
theorem encodeRecord_of_decodeRecord (r : Nat) (i : Instr) (h : decodeRecord r = .ok i) :
    encodeRecord i = r % 2 ^ i.recordBits := by
  have hB : maskField 26 (slice r 29 4) = slice r 29 4 := maskField_slice 26 r 29 4 rfl
  have hC : maskField 26 (slice r 55 30) = slice r 55 30 := maskField_slice 26 r 55 30 rfl
  unfold decodeRecord at h
  split at h
  · exact nomatch h
  · next htag =>
    obtain rfl := Except.ok.inj h
    rw [encodeRecord_const, maskField_slice 23 r 26 4 rfl, maskField_slice 26 r 52 27 rfl]
    exact constNumber_of_slices r (eq_tag_of_ofTag_eq_some _ _ htag)
  · next htag =>
    obtain rfl := Except.ok.inj h
    rw [encodeRecord_load, hB, hC]
    exact memNumber_of_slices r 12 (eq_tag_of_ofTag_eq_some _ _ htag)
  · next htag =>
    obtain rfl := Except.ok.inj h
    rw [encodeRecord_store, hB, hC]
    exact memNumber_of_slices r 3 (eq_tag_of_ofTag_eq_some _ _ htag)
  · next htag =>
    obtain rfl := Except.ok.inj h
    rw [encodeRecord_bitrev, hB, hC, maskField_slice 7 r 62 56 rfl]
    exact memNumber_of_slices_with_offset r 9 (eq_tag_of_ofTag_eq_some _ _ htag)

/-! ### ENC after DEC on byte strings -/

theorem decode_eq_ok (bytes : List Byte) (i : Instr) :
    decode bytes = .ok i ↔ bytes.length = 11 ∧ decodeRecord (leValue bytes) = .ok i := by
  by_cases hlen : bytes.length = 11
  · rw [decode_of_length bytes hlen]
    exact (and_iff_right hlen).symm
  · rw [decode_of_length_ne bytes hlen]
    exact ⟨nofun, fun h => absurd h.1 hlen⟩

/-- A record is determined by its number. -/
theorem encode_eq_iff (i : Instr) (bytes : List Byte) (hlen : bytes.length = 11) :
    encode i = bytes ↔ encodeRecord i = leValue bytes := by
  constructor
  · rintro rfl
    exact (leValue_encode i).symm
  · intro h
    calc encode i = leBytes 11 (leValue bytes) := by rw [encode, h]
      _ = bytes := hlen ▸ leBytes_leValue bytes

theorem encode_of_decode (bytes : List Byte) (i : Instr) (h : decode bytes = .ok i) :
    encode i = leBytes 11 (leValue bytes % 2 ^ i.recordBits) := by
  obtain ⟨-, hrec⟩ := (decode_eq_ok bytes i).mp h
  rw [encode, encodeRecord_of_decodeRecord _ i hrec]

/-- ENC gives back the string DEC read exactly when no ignored bit of it is set. -/
theorem encode_eq_iff_of_decode (bytes : List Byte) (i : Instr) (h : decode bytes = .ok i) :
    encode i = bytes ↔ leValue bytes < 2 ^ i.recordBits := by
  obtain ⟨hlen, hrec⟩ := (decode_eq_ok bytes i).mp h
  rw [encode_eq_iff i bytes hlen, encodeRecord_of_decodeRecord _ i hrec]
  exact Nat.mod_eq_iff_lt (by positivity)

/-- Settles O13; CONST 0, 0 with bit 53 clear and set are the two strings. -/
theorem encodeUndoesDecodeOnlyWithoutIgnoredBits : Obligations.EncodeUndoesDecodeOnlyWithoutIgnoredBits :=
  ⟨fun bytes b c => encode_eq_iff_of_decode bytes (.const b c),
    fun bytes b c => encode_eq_iff_of_decode bytes (.load b c),
    fun bytes b c => encode_eq_iff_of_decode bytes (.store b c),
    fun bytes b c d => encode_eq_iff_of_decode bytes (.bitrev b c d),
    [4, 0, 0, 0, 0, 0, 0, 0, 0, 0, 0], [4, 0, 0, 0, 0, 0, 0x20, 0, 0, 0, 0], .const 0 0, by decide, by decide,
    by decide⟩

/-- With the ignored bits cleared the string is the record ENC builds, and DEC undoes ENC. -/
theorem decode_eq_decode_cleared (bytes : List Byte) (i : Instr) (n : Nat) (hn : i.recordBits = n)
    (h : decode bytes = .ok i) : decode bytes = decode (leBytes 11 (leValue bytes % 2 ^ n)) := by
  rw [← hn, ← encode_of_decode bytes i h, decode_encode, masked_of_wellFormed i (decodedOperandsFitFields bytes i h), h]

/-- Settles O5: the tag fixes the instruction's format and so the bits that can be cleared. -/
theorem decodeIgnoresBitsOutsideFields : Obligations.DecodeIgnoresBitsOutsideFields := by
  intro bytes hlen r
  have hdec := decode_of_length bytes hlen
  exact ⟨fun h => decode_eq_decode_cleared bytes _ _ rfl (hdec.trans (decodeRecord_of_tag_const r h)),
    fun h => decode_eq_decode_cleared bytes _ _ rfl (hdec.trans (decodeRecord_of_tag_load r h)),
    fun h => decode_eq_decode_cleared bytes _ _ rfl (hdec.trans (decodeRecord_of_tag_store r h)),
    fun h => decode_eq_decode_cleared bytes _ _ rfl (hdec.trans (decodeRecord_of_tag_bitrev r h))⟩

/-! ### The bytes of a record -/

theorem constNumber_lt (b c : Nat) (hb : b < 2 ^ 23) (hc : c < 2 ^ 26) : constNumber b c < 2 ^ 53 := by
  unfold constNumber
  omega

/-- Settles O9, by the number of each format. -/
theorem encodedBitsAboveFieldsAreZero : Obligations.EncodedBitsAboveFieldsAreZero := by
  intro b c d
  simp only [leValue_encode]
  refine ⟨?const, encodeRecord_lt _, encodeRecord_lt _, encodeRecord_lt _⟩
  case const =>
    rw [encodeRecord_const]
    exact constNumber_lt _ _ (maskField_lt 23 b) (maskField_lt 26 c)

/-- The bytes of a number, given as numbers that agree with it modulo 256 place by place. -/
theorem leBytes_eq_map (n : Nat) (xs : List Nat) (v : Nat) (hn : n = xs.length)
    (h : ∀ k (hk : k < xs.length), v / 256 ^ k % 256 = xs[k] % 256) : leBytes n v = xs.map (BitVec.ofNat 8) := by
  subst hn
  induction xs generalizing v with
  | nil => rfl
  | cons x xs ih =>
    have hhead : BitVec.ofNat 8 v = BitVec.ofNat 8 x := by
      have hbyte : v / 256 ^ 0 % 256 = x % 256 := h 0 (Nat.zero_lt_succ _)
      rw [pow_zero, Nat.div_one] at hbyte
      exact BitVec.eq_of_toNat_eq hbyte
    have htail : leBytes xs.length (v / 256) = xs.map (BitVec.ofNat 8) := ih (v / 256) fun k hk => by
      have hbyte := h (k + 1) (Nat.succ_lt_succ hk)
      rwa [Nat.pow_succ', ← Nat.div_div_eq_div_mul] at hbyte
    rw [List.length_cons, leBytes, hhead, htail, List.map_cons]

theorem leBytes_constNumber (b c : Nat) (hb : b < 2 ^ 23) (hc : c < 2 ^ 26) :
    leBytes 11 (constNumber b c) =
      [b % 2 ^ 4 * 2 ^ 4 + 4, b / 2 ^ 4, b / 2 ^ 12, c % 2 ^ 5 * 2 ^ 3 + b / 2 ^ 20, c / 2 ^ 5, c / 2 ^ 13,
        c / 2 ^ 21, 0, 0, 0, 0].map (BitVec.ofNat 8) := by
  refine leBytes_eq_map 11 _ _ rfl fun k hk => ?_
  simp only [List.length_cons, List.length_nil] at hk
  unfold constNumber
  interval_cases k
  all_goals simp only [List.getElem_cons_zero, List.getElem_cons_succ]
  all_goals omega

theorem leBytes_memNumber (tag b c d : Nat) (ht : tag < 2 ^ 4) (hb : b < 2 ^ 26) (hc : c < 2 ^ 26) (hd : d < 2 ^ 7) :
    leBytes 11 (memNumber tag b c d) =
      [b % 2 ^ 4 * 2 ^ 4 + tag, b / 2 ^ 4, b / 2 ^ 12, c % 2 ^ 2 * 2 ^ 6 + b / 2 ^ 20, c / 2 ^ 2, c / 2 ^ 10,
        c / 2 ^ 18, d, 0, 0, 0].map (BitVec.ofNat 8) := by
  refine leBytes_eq_map 11 _ _ rfl fun k hk => ?_
  simp only [List.length_cons, List.length_nil] at hk
  unfold memNumber
  interval_cases k
  all_goals simp only [List.getElem_cons_zero, List.getElem_cons_succ]
  all_goals omega

/-- Settles O7, by the bytes of format C. -/
theorem constRecordByteView : Obligations.ConstRecordByteView := by
  rintro b c _ _ rfl rfl
  rw [encode, encodeRecord_const]
  exact leBytes_constNumber _ _ (maskField_lt 23 b) (maskField_lt 26 c)

/-- Settles O8, by the bytes of format M with each instruction's tag and seventh byte. -/
theorem memoryFormatRecordByteView : Obligations.MemoryFormatRecordByteView := by
  rintro b c d _ _ _ rfl rfl rfl view
  have hb := maskField_lt 26 b
  have hc := maskField_lt 26 c
  refine ⟨?load, ?store, ?bitrev⟩
  case load => rw [encode, encodeRecord_load]; exact leBytes_memNumber 12 _ _ 0 (by decide) hb hc (by decide)
  case store => rw [encode, encodeRecord_store]; exact leBytes_memNumber 3 _ _ 0 (by decide) hb hc (by decide)
  case bitrev => rw [encode, encodeRecord_bitrev]; exact leBytes_memNumber 9 _ _ _ (by decide) hb hc (maskField_lt 7 d)

/-! ### ENC with a raw tag -/

theorem encodeRaw_of_ofTag_eq_none (tag : Nat) (b c d : Int) (h : Opcode.ofTag tag = none) :
    encodeRaw tag b c d = .error (.encodeContract tag) := by
  rw [encodeRaw, h]

theorem encodeRaw_of_ofTag_eq_some (tag : Nat) (o : Opcode) (b c d : Int) (h : Opcode.ofTag tag = some o) :
    encodeRaw tag b c d = .ok (encode (o.instr b c d)) := by
  rw [encodeRaw, h]

/-- Settles O11: the opcode map decides between the contract error and the record of the opcode it names. -/
theorem rawTagOutsideOpcodesIsContractError : Obligations.RawTagOutsideOpcodesIsContractError := by
  intro tag b c d
  exact ⟨fun h => encodeRaw_of_ofTag_eq_none tag b c d ((ofTag_eq_none tag).mpr h),
    encodeRaw_of_ofTag_eq_some 3 .store b c d rfl, encodeRaw_of_ofTag_eq_some 4 .const b c d rfl,
    encodeRaw_of_ofTag_eq_some 9 .bitrev b c d rfl, encodeRaw_of_ofTag_eq_some 12 .load b c d rfl⟩

end Sys2Proof
end

section
/-! The addresses an instruction asks for (60_exceptions.md section 1): an error of an instruction is an AddressFault of
one of them, outside the memory. -/

namespace Sys2Proof.Machine

/-- The word at an address as the number an instruction computes with. -/
def wordAt (m : Memory) (a : Int) : Int := addressOf (Memory.read m a.toNat)

theorem wordAt_nonneg (m : Memory) (a : Int) : 0 ≤ wordAt m a := addressOf_nonneg _

theorem addressOf_of_memRead (m : Memory) (a : Int) (w : Word) (h : memRead m a = .ok w) : addressOf w = wordAt m a := by
  obtain ⟨-, rfl⟩ := (memRead_eq_ok m a w).mp h
  rfl

/-- Settles O20: the sum's bounds are those of a word and of D, and the indexed read is MemRead of the sum. -/
theorem effectiveAddressIsExactSum : Obligations.EffectiveAddressIsExactSum := by
  intro m b d hb0 hb hd0 hd base
  have hword := addressOf_lt base
  have hindexed : indexed m b d = memRead m (effectiveAddress base d) := indexed_of_cell_lt m b d _ hb0 hb rfl
  have hnonneg : 0 ≤ effectiveAddress base d := Int.add_nonneg (addressOf_nonneg base) hd0
  have hmax : effectiveAddress base d ≤ 2 ^ 64 + 126 := by
    unfold effectiveAddress
    omega
  exact ⟨rfl, hnonneg, hmax, fun hle => hindexed.trans (memRead_of_le m _ hle),
    fun hlt => hindexed.trans (memRead_of_lt m _ hnonneg hlt)⟩

/-! ### Which address an error names -/

/-- The addresses that can fault (60_exceptions.md section 1), in pseudocode order (R92 to R94, R100). -/
def listedAddresses : Instr → Memory → List Int
  | .const _ c, _ => [c]
  | .load b c, m => [b, wordAt m b, c]
  | .store b c, m => [b, wordAt m b, c, wordAt m c, wordAt m (wordAt m c)]
  | .bitrev b c d, m => [b, wordAt m b + d, c]

/-- The error is an AddressFault of an address of the list that is no word of the memory. -/
def FaultsIn (as : List Int) (e : BlockError) : Prop := ∃ a ∈ as, ¬ inMemory a ∧ e = .addressFault a

theorem FaultsIn.mono {as bs : List Int} {e : BlockError} (h : FaultsIn as e) (hsub : as ⊆ bs) : FaultsIn bs e := by
  obtain ⟨a, ha, hout, rfl⟩ := h
  exact ⟨a, hsub ha, hout, rfl⟩

theorem faultsIn_of_memRead_error (m : Memory) (a : Int) (e : BlockError) (h : memRead m a = .error e) :
    FaultsIn [a] e :=
  ⟨a, List.mem_singleton_self a, (memRead_eq_error m a e).mp h⟩

theorem faultsIn_of_memWrite_error (m : Memory) (a v : Int) (e : BlockError) (h : memWrite m a v = .error e) :
    FaultsIn [a] e :=
  ⟨a, List.mem_singleton_self a, (memWrite_eq_error m a v e).mp h⟩

theorem faultsIn_of_indirect_error (m : Memory) (b : Int) (e : BlockError) (h : indirect m b = .error e) :
    FaultsIn [b, wordAt m b] e := by
  obtain h | ⟨p, hp, h⟩ := (indirect_eq_error m b e).mp h
  · exact (faultsIn_of_memRead_error m b e h).mono (by simp)
  · rw [addressOf_of_memRead m b p hp] at h
    exact (faultsIn_of_memRead_error m _ e h).mono (by simp)

theorem faultsIn_of_indexed_error (m : Memory) (b d : Int) (e : BlockError) (h : indexed m b d = .error e) :
    FaultsIn [b, wordAt m b + d] e := by
  obtain h | ⟨p, hp, h⟩ := (indexed_eq_error m b d e).mp h
  · exact (faultsIn_of_memRead_error m b e h).mono (by simp)
  · rw [effectiveAddress, addressOf_of_memRead m b p hp] at h
    exact (faultsIn_of_memRead_error m _ e h).mono (by simp)

theorem addressOf_of_indirect (m : Memory) (b : Int) (w : Word) (h : indirect m b = .ok w) :
    addressOf w = wordAt m (wordAt m b) := by
  obtain ⟨p, hp, hw⟩ := (indirect_eq_ok m b w).mp h
  rw [addressOf_of_memRead m _ w hw, addressOf_of_memRead m b p hp]

/-- The one error of an instruction, for all operands: an address it asks for is outside the memory. -/
theorem faultsIn_of_memoryResult_error (i : Instr) (m : Memory) (e : BlockError) (h : memoryResult i m = .error e) :
    FaultsIn (listedAddresses i m) e := by
  cases i with
  | const b c => exact faultsIn_of_memWrite_error m c b e h
  | load b c =>
    obtain h | ⟨v, -, h⟩ := (bind_eq_error _ _ _).mp h
    · exact (faultsIn_of_indirect_error m b e h).mono (by simp [listedAddresses])
    · exact (faultsIn_of_memWrite_error m c _ e h).mono (by simp [listedAddresses])
  | store b c =>
    obtain h | ⟨v, -, h⟩ := (bind_eq_error _ _ _).mp h
    · exact (faultsIn_of_indirect_error m b e h).mono (by simp [listedAddresses])
    · obtain h | ⟨dest, hdest, h⟩ := (bind_eq_error _ _ _).mp h
      · exact (faultsIn_of_indirect_error m c e h).mono (by simp [listedAddresses])
      · rw [addressOf_of_indirect m c dest hdest] at h
        exact (faultsIn_of_memWrite_error m _ _ e h).mono (by simp [listedAddresses])
  | bitrev b c d =>
    obtain h | ⟨v, -, h⟩ := (bind_eq_error _ _ _).mp h
    · exact (faultsIn_of_indexed_error m b d e h).mono (by simp [listedAddresses])
    · exact (faultsIn_of_memWrite_error m c _ e h).mono (by simp [listedAddresses])

/-- Settles O30: the two ends of an instruction, its error being an AddressFault outside the memory. -/
theorem execCompletesOrRaisesAddressFault : Obligations.ExecCompletesOrRaisesAddressFault := by
  intro i s
  obtain ⟨t, h⟩ := exists_exec_eq_next i s
  refine ⟨t, h, ?_⟩
  obtain ⟨m, -, rfl⟩ | ⟨e, he, rfl⟩ := (exec_eq_next i s t).mp h
  · exact .inl ⟨retire_off s m, retire_status s m⟩
  · obtain ⟨a, -, hout, rfl⟩ := faultsIn_of_memoryResult_error i s.mem e he
    exact .inr ⟨a, hout, rfl⟩

/-! ### The addresses a well-formed instruction can fault on -/

/-- Operands that fit their fields and words of memory are never negative. -/
theorem listedAddresses_nonneg (i : Instr) (m : Memory) (hi : i.wellFormed = true) :
    ∀ a ∈ listedAddresses i m, 0 ≤ a := by
  cases i with
  | const b c =>
    obtain ⟨-, hc0, -⟩ := (wellFormed_const b c).mp hi
    simp [listedAddresses, hc0]
  | load b c =>
    obtain ⟨⟨hb0, -⟩, hc0, -⟩ := (wellFormed_load b c).mp hi
    simp [listedAddresses, hb0, hc0, wordAt_nonneg]
  | store b c =>
    obtain ⟨⟨hb0, -⟩, hc0, -⟩ := (wellFormed_store b c).mp hi
    simp [listedAddresses, hb0, hc0, wordAt_nonneg]
  | bitrev b c d =>
    obtain ⟨⟨hb0, -⟩, ⟨hc0, -⟩, hd0, -⟩ := (wellFormed_bitrev b c d).mp hi
    simp [listedAddresses, hb0, hc0, Int.add_nonneg (wordAt_nonneg m b) hd0]

theorem mem_listedAddresses_of_exec_fault (i : Instr) (s t : State) (a : Int) (o : Nat) (hi : i.wellFormed = true)
    (hrun : s.status = .running) (ht : t.status = .faulted (.addressFault a) o) (h : exec i s = .next t) :
    2048 ≤ a ∧ a ∈ listedAddresses i s.mem := by
  obtain ⟨m, -, rfl⟩ | ⟨e, he, rfl⟩ := (exec_eq_next i s t).mp h
  · exact nomatch hrun.symm.trans ht
  · obtain ⟨rfl, -⟩ := RunStatus.faulted.inj ht
    obtain ⟨a', ha, hout, heq⟩ := faultsIn_of_memoryResult_error i s.mem _ he
    obtain rfl := BlockError.addressFault.inj heq
    have h0 := listedAddresses_nonneg i s.mem hi a ha
    exact ⟨not_lt.mp fun hlt => hout ⟨h0, hlt⟩, ha⟩

/-- Settles O27, each instruction's list spelled out. -/
theorem addressFaultsOnlyOnListedAddresses : Obligations.AddressFaultsOnlyOnListedAddresses := by
  intro s t a o M hM hrun ht
  obtain rfl : M = wordAt s.mem := funext hM
  have hasked (i : Instr) (hi : i.wellFormed = true) (h : exec i s = .next t) :=
    mem_listedAddresses_of_exec_fault i s t a o hi hrun ht h
  refine ⟨fun b c hi h => ?const, fun b c hi h => ?load, fun b c hi h => ?store, fun b c d hi h => ?bitrev⟩
  case const => simpa [listedAddresses] using hasked _ hi h
  case load => simpa [listedAddresses] using hasked _ hi h
  case store => simpa [listedAddresses] using hasked _ hi h
  case bitrev => simpa [listedAddresses] using hasked _ hi h

end Sys2Proof.Machine
end

section
/-! The step that ends a run, the record placed for the next fetch, and what the host asks from outside
(40_fetch_execute.md, 60_exceptions.md). -/

namespace Sys2Proof.Machine

/-! ### Steps that end in an error -/

theorem no_step_of_over (s : State) (hover : s.status ≠ .running) (t : State) : step s ≠ .next t :=
  fun h => hover (running_of_step s t h)

/-- Settles O37: of the three ways a step ends, taking an error is the one that leaves a fault record. -/
theorem errorStepChangesOnlyStatus : Obligations.ErrorStepChangesOnlyStatus := by
  intro s t e o h ht
  have hover : t.status ≠ .running := by rw [ht]; exact nofun
  obtain ⟨hrun, ⟨-, rfl⟩ | ⟨-, rec, -, ⟨i, m, -, -, rfl⟩ | ⟨e', -, rfl⟩⟩⟩ := step_cases s t h
  · exact nomatch ht
  · exact absurd hrun hover
  · obtain ⟨rfl, rfl⟩ := RunStatus.faulted.inj ht
    exact ⟨rfl, rfl, no_step_of_over _ hover⟩

/-- Settles O36: the opcode map has no entry for the tag, so DEC raises and the step takes its error. -/
theorem stepFaultsOnUnknownOpcode : Obligations.StepFaultsOnUnknownOpcode := by
  rintro s _ hrun hlen rfl h3 h4 h9 h12
  have hrec : ((s.prog.drop s.off).take 11).length = 11 := by
    rw [List.length_take, List.length_drop]
    omega
  refine step_of_decode_error s _ _ hrun (fetch_of_whole_record s hlen) ?_
  rw [decode_of_length _ hrec]
  exact (decodeRecord_eq_error _ _).mpr ⟨(ofTag_eq_none _).mpr ⟨h3, h4, h9, h12⟩, rfl⟩

/-! ### The placed record -/

theorem drop_placeRecord (prog : List Byte) (off : Nat) (rec : List Byte) :
    (placeRecord prog off rec).drop off = rec ++ prog.drop (off + rec.length) := by
  have hfront : (prog.take off ++ List.replicate (off - prog.length) 0).length = off := by
    rw [List.length_append, List.length_take, List.length_replicate]
    omega
  rw [placeRecord, List.append_assoc, List.drop_left' hfront]

/-- The next fetch reads the table word's record, wherever `off` stands. -/
theorem fetch_withFetchWord (s : State) (nbits w : Nat) :
    fetch (s.withFetchWord nbits w) = some (tableRecord nbits w) := by
  have hlen : (tableRecord nbits w).length = 11 := length_leBytes _ _
  have hdrop := drop_placeRecord s.prog s.off (tableRecord nbits w)
  rw [fetch_eq_some, withFetchWord_prog, withFetchWord_off, ← List.length_drop, hdrop]
  exact ⟨by rw [List.length_append]; omega, (List.take_left' hlen).symm⟩

theorem decodeTableWord_eq_some (nbits w : Nat) (i : Instr) :
    decodeTableWord nbits w = some i ↔ decode (tableRecord nbits w) = .ok i := by
  unfold decodeTableWord
  cases decode (tableRecord nbits w) with
  | error e => exact ⟨nofun, nofun⟩
  | ok j => exact ⟨fun h => congrArg _ (Option.some.inj h), fun h => congrArg _ (Except.ok.inj h)⟩

/-- Settles O41: the fetch answers the record of the table word, and the step dispatches what DEC makes of it. -/
theorem placedWordIsTheNextInstruction : Obligations.PlacedWordIsTheNextInstruction :=
  fun s nbits w i h => step_of_decode_ok _ _ i (withFetchWord_status s nbits w) (fetch_withFetchWord s nbits w)
    ((decodeTableWord_eq_some nbits w i).mp h)

/-! ### The end of a run -/

/-- A Running state ends its run within the whole records left; with `off` beyond PROG it halts at once. -/
theorem exists_endsAfter (s : State) (hrun : s.status = .running) :
    ∃ k x, endsAfter s k x ∧ x ≠ .running ∧ k ≤ (s.prog.length - s.off) / 11 := by
  by_cases hle : s.off ≤ s.prog.length
  · obtain hhalt | ⟨k, e, hk, hfault⟩ := endsAfter_cases _ s hrun hle rfl
    · exact ⟨_, .halted, hhalt, nofun, le_rfl⟩
    · exact ⟨k, _, hfault, nofun, hk.le⟩
  · have hhalt : step s = .next s.halt := step_of_no_whole_record s hrun (by omega)
    exact ⟨0, .halted, endsAfter_zero s .halted hrun hhalt, nofun, Nat.zero_le _⟩

/-- Settles O46: a run that is over stays so, and the bound of `run` reaches the end of any other. -/
theorem runEndsTheRun : Obligations.RunEndsTheRun := by
  intro s
  by_cases hrun : s.status = .running
  · obtain ⟨k, x, hends, hx, hk⟩ := exists_endsAfter s hrun
    have ⟨_, hend⟩ := hends
    rw [run_of_endsAfter s k x hends hx hk, hend]
    exact hx
  · rw [run, runFor_of_over _ s hrun]
    exact hrun

/-- Settles O49: Aborted is neither Halted nor Running. -/
theorem abortIsTerminalAndKeepsMemory : Obligations.AbortIsTerminalAndKeepsMemory := by
  intro s hrun
  have hstatus : (abort s).status = .aborted := abort_status_of_running s hrun
  have habort : abort s = { s with status := .aborted } := by rw [abort, hrun]
  refine ⟨habort, ?_, no_step_of_over _ ?_⟩
  · rw [State.succeeded, hstatus]; exact nofun
  · rw [hstatus]; exact nofun

/-! ### The range of a dump, and the raiser of each error -/

theorem dump_of_bad_range (s : State) (start stop : Int) (h : ¬ (0 ≤ start ∧ start ≤ stop ∧ stop ≤ 2048)) :
    dump s start stop = .error (.badRange start stop) :=
  if_neg h

theorem exists_dump_eq_ok (s : State) (start stop : Int) (h : 0 ≤ start ∧ start ≤ stop ∧ stop ≤ 2048) :
    ∃ l, dump s start stop = .ok l :=
  ⟨_, if_pos h⟩

/-- Settles O48: a list for a bad range would contradict the error dump answers there. -/
theorem dumpRefusesExactlyBadRanges : Obligations.DumpRefusesExactlyBadRanges := by
  refine fun s start stop => ⟨⟨fun ⟨l, hl⟩ => ?_, exists_dump_eq_ok s start stop⟩, dump_of_bad_range s start stop⟩
  by_contra hbad
  exact nomatch hl.symm.trans (dump_of_bad_range s start stop hbad)

theorem dump_error_eq_badRange (s : State) (start stop : Int) (e : BlockError) (h : dump s start stop = .error e) :
    e = .badRange start stop := by
  by_cases hrange : 0 ≤ start ∧ start ≤ stop ∧ stop ≤ 2048
  · obtain ⟨l, hl⟩ := exists_dump_eq_ok s start stop hrange
    exact nomatch hl.symm.trans h
  · exact Except.error.inj (h.symm.trans (dump_of_bad_range s start stop hrange))

theorem encodeRaw_error_eq_encodeContract (tag : Nat) (b c d : Int) (e : BlockError)
    (h : encodeRaw tag b c d = .error e) : e = .encodeContract tag := by
  cases hop : Opcode.ofTag tag with
  | none => exact Except.error.inj (h.symm.trans (encodeRaw_of_ofTag_eq_none tag b c d hop))
  | some o => exact nomatch h.symm.trans (encodeRaw_of_ofTag_eq_some tag o b c d hop)

/-- A cause the VM's fault record can hold is an illegal tag or an address. -/
theorem causeCode_of_vmCause (e : BlockError) (h : vmCause e = true) : causeCode e = 1 ∨ causeCode e = 2 := by
  cases e with
  | unknownOpcode tag => exact .inl rfl
  | addressFault a => exact .inr rfl
  | decodeLength n => exact nomatch h
  | encodeContract tag => exact nomatch h
  | badRange start stop => exact nomatch h

/-- Settles O50, raiser by raiser. -/
theorem eachErrorFromItsOwnRaiser : Obligations.EachErrorFromItsOwnRaiser := by
  refine ⟨fun bytes e h => ?dec, fun s t e o h ht => ?vm, fun tag b c d e h => ?enc, fun s start stop e h => ?dump⟩
  case dec =>
    obtain ⟨-, rfl⟩ | ⟨-, -, rfl⟩ := (decodeErrorsAreLengthThenTag bytes e).mp h
    · exact .inr rfl
    · exact .inl rfl
  case vm => exact causeCode_of_vmCause e (vmCause_of_step_fault s t e o h ht)
  case enc => rw [encodeRaw_error_eq_encodeContract tag b c d e h]; rfl
  case dump => rw [dump_error_eq_badRange s start stop e h]; rfl

end Sys2Proof.Machine
end
